-- ==== Sys2Proof/Word.lean ====
section
/-! DEFINITION. The byte, and the one narrowing of exact arithmetic to it (spec/00_scope.md R7, spec/10_state.md R22). -/

namespace Sys2Proof

/-- A byte: an unsigned value 0..255, bit 0 the least significant (R7). Registers, memory cells, opcodes, operands and
immediates are all bytes (spec/20_memory.md R45; the register width is the spec's D1, log 5). -/
abbrev Byte := BitVec 8

/-- `wrap8(v) = v mod 256`, the least non-negative residue (R7). -/
def wrap8 (v : Int) : Byte := BitVec.ofInt 8 v

end Sys2Proof
end

