-- ==== Sys2Proof/Config.lean ====
section
/-! DEFINITION. The parameters of the block (spec/00_scope.md R6): the ten opcode bytes, and the default of SP_INIT.
A map that has passed the check of R66 is `OpcodeMap` in Sys2Proof/WellFormed.lean; the default is `defaultOpcodes` in Sys2Proof/Decode.lean; IMAGE is an argument of `State.resetWith`. -/

namespace Sys2Proof

/-- OPCODES as it is supplied: one opcode byte for each of the ten mnemonics (R64), not yet checked. Nothing decodes with
it before `OpcodeMap.ofBytes?` has found the ten distinct (R66). -/
structure OpcodeBytes where
  ldi  : Byte
  prn  : Byte
  hlt  : Byte
  mul  : Byte
  push : Byte
  pop  : Byte
  cmp  : Byte
  jmp  : Byte
  jeq  : Byte
  jne  : Byte
  deriving DecidableEq, Repr

/-- The default of SP_INIT, the reset value of R7 (spec/10_state.md R24).
DESIGN CHOICE (the spec's own, D3; log 2), unsafe for a claim about the default; `State.resetWith` takes any value. -/
def Config.spInit : Byte := 0

end Sys2Proof
end

