-- ==== Sys2Proof/Machine/State.lean ====
section
/-! DEFINITION. The state of the block as plain data (spec/10_state.md R34), the fault record (spec/60_exceptions.md
R165), the reasons a step is not enabled, and the state after reset (R35). -/

namespace Sys2Proof.Machine

/-- The three fatal conditions (R160). -/
inductive FaultKind where
  | outOfBounds
  | unknownInstruction
  | unsupportedAluOperation
  deriving DecidableEq, Repr

/-- The recorded index, with the tag that says what it is (R165). -/
inductive FaultIndex where
  /-- An address outside 0..255. -/
  | address (a : Nat)
  /-- A register-index byte outside 0..7. -/
  | register (i : Byte)
  /-- An opcode byte with no handler. -/
  | opcode (op : Byte)
  deriving DecidableEq, Repr

/-- The fault record of `Faulted(f)` (R165). `index` is none only for the kind whose row of R160 records nothing, which
no step raises. -/
structure FaultRecord where
  kind  : FaultKind
  /-- The program counter at the start of the faulting step. -/
  pc    : Nat
  index : Option FaultIndex
  deriving DecidableEq, Repr

/-- What a primitive raises: the `raise K(info)` of spec/00_scope.md R8. -/
inductive Raise where
  /-- MemRead or MemWrite at an address outside 0..255 (spec/20_memory.md R42, R43). -/
  | outOfBoundsAddress (a : Nat)
  /-- CheckReg of an operand byte outside 0..7 (R163). -/
  | outOfBoundsRegister (i : Byte)
  /-- Decode of a byte with no handler (R162). -/
  | unknownInstruction (op : Byte)
  /-- The ALU contract called with an operation it does not have (R164); no step raises it. -/
  | unsupportedAluOperation
  deriving DecidableEq, Repr

/-- The run state (R29). `faulted f` is terminal, as is `halted`. -/
inductive RunState where
  | ready
  | running
  | halted
  | faulted (f : FaultRecord)
  deriving DecidableEq, Repr

/-- The 256 cells (spec/20_memory.md R40) as the list of those that do not hold 0, in rising address order: the canonical
form `Memory.wf` of Machine/Ops.lean. An unlisted address reads as 0 (the spec's D6; log 4). -/
abbrev Memory := List Host.Cell

/-- The architectural state (R34). SP is `x[7]` (R23, C4). -/
structure State where
  /-- The 256 bytes of memory, code and data. -/
  mem   : Memory
  /-- R0 to R7. -/
  x     : Vector Byte 8
  /-- The program counter, a natural number that never wraps (R25; the spec's D7, log 6). -/
  pc    : Nat
  /-- The Equal flag `EQ` (R28). -/
  equal : Bool
  /-- The run state. -/
  state : RunState
  /-- The output stream `out`, oldest byte first (R30). -/
  out   : List Byte
  deriving DecidableEq, Repr

/-- Why no step is enabled: spec/40_execution_loop.md R84 enables a step exactly when `state = Running`. A fatal condition
is none of these: it is a next state (`raise` in Machine/Ops.lean). -/
inductive Fault where
  /-- `stepWith` in `Ready`: RUN has not been asserted (R82; spec/95_test_vectors.md V58). Safe: nothing runs. -/
  | notStarted
  /-- `stepWith` in `Halted`: the run ended with HLT (R87). Safe: the end is terminal. -/
  | halted
  /-- `stepWith` in `Faulted f`: the run ended with a fatal condition (R88). Safe: the end is terminal. -/
  | faulted (f : FaultRecord)
  deriving DecidableEq, Repr

/-- Reasons to give an instruction no meaning. -/
inductive Refusal where
  /-- For an arm of `exec` whose instruction has no meaning yet. Safe. No arm answers with it: all ten are modelled. -/
  | notModelled (mnemonic : String)
  deriving DecidableEq, Repr

/-- The answer of a meaning or of a step. -/
abbrev Result := Host.Outcome State Fault Refusal

/-- The state after RESET with an empty image and the default SP_INIT (R35, R180): pc 0, EQ false, R0 to R6 zero
(DESIGN CHOICE, the spec's D5, log 3; unsafe), R7 = SP_INIT (the spec's D3, log 2; unsafe), memory all zero (the spec's
D6, log 4; unsafe), run state Ready, no output. -/
def State.reset : State where
  mem   := []
  x     := #v[0, 0, 0, 0, 0, 0, 0, Config.spInit]
  pc    := 0
  equal := false
  state := .ready
  out   := []

end Sys2Proof.Machine
end

