-- ==== Sys2Proof/Machine/Ops.lean ====
section
/-! DEFINITION. The named operations over registers, memory, the output and the run state (spec/00_scope.md R8), and the
one way a fatal condition is taken (spec/60_exceptions.md R166, R169). There is no return from one (R170). -/

namespace Sys2Proof.Machine

/-! ### Registers -/

/-- `x[i]` (R8). -/
def State.readReg (s : State) (i : Fin 8) : Byte := s.x[i]

/-- `x[i] <- v`, which stores `wrap8(v)` (R8; spec/10_state.md R22). -/
def State.writeReg (s : State) (i : Fin 8) (v : Int) : State := { s with x := s.x.set i (wrap8 v) i.isLt }

/-- R7, the stack pointer (spec/10_state.md R23). -/
def sp : Fin 8 := 7

/-! ### Program counter, output, run state -/

/-- `pc <- n` (R8). -/
def State.setPc (s : State) (n : Nat) : State := { s with pc := n }

/-- `pc <- pc + n`; the sum is not wrapped (spec/10_state.md R25, R27). -/
def State.advance (s : State) (n : Nat) : State := s.setPc (s.pc + n)

/-- `Emit(v)`: appends one byte to `out` (R8; spec/10_state.md R30). -/
def State.emit (s : State) (v : Byte) : State := { s with out := s.out ++ [v] }

/-- `state <- r` (R8). -/
def State.setState (s : State) (r : RunState) : State := { s with state := r }

/-! ### Memory -/

/-- The cells of a list all lie at or above `lo`, in rising order, below 256, and none holds 0. -/
def Memory.sortedFrom : Nat → Memory → Bool
  | _, [] => true
  | lo, (a, v) :: rest => decide (lo ≤ a) && decide (a < 256) && decide (v ≠ 0) && Memory.sortedFrom (a + 1) rest

/-- The canonical form: addresses strictly rising, all below 256, no cell equal to what an unlisted one reads as. -/
def Memory.wf (mem : Memory) : Bool := Memory.sortedFrom 0 mem

/-- The byte a cell holds: what the list gives, or 0 (the spec's D6; log 4). The machine reaches it through `memRead`. -/
def Memory.get : Memory → Nat → Byte
  | [], _ => 0
  | (b, v) :: rest, a => if a = b then v else Memory.get rest a

/-- Puts a cell at the head of a list, unless it holds what an unlisted cell reads as. -/
def Memory.cell (a : Nat) (v : Byte) (rest : Memory) : Memory := if v = 0 then rest else (a, v) :: rest

/-- The memory with one cell changed, in canonical form. The machine reaches it through `memWrite`. -/
def Memory.set : Memory → Nat → Byte → Memory
  | [], a, v => Memory.cell a v []
  | (b, w) :: rest, a, v =>
    if a < b then Memory.cell a v ((b, w) :: rest)
    else if a = b then Memory.cell a v rest
    else (b, w) :: Memory.set rest a v

/-- `MemRead(addr, 1)` (spec/20_memory.md R42). -/
def memRead (mem : Memory) (addr : Nat) : Except Raise Byte :=
  if addr < 256 then .ok (mem.get addr) else .error (.outOfBoundsAddress addr)

/-- `MemWrite(addr, 1, v)` (spec/20_memory.md R43). -/
def memWrite (mem : Memory) (addr : Nat) (v : Byte) : Except Raise Memory :=
  if addr < 256 then .ok (mem.set addr v) else .error (.outOfBoundsAddress addr)

/-- `mem <- m`: the memory a `memWrite` gave. -/
def State.setMem (s : State) (mem : Memory) : State := { s with mem := mem }

/-- Bytes placed at rising addresses from `a`; a byte that would lie at 256 or beyond is dropped. Used for IMAGE
(Machine/Ports.lean) and for `State.withFetchWord`, never by an instruction. -/
def Memory.place (mem : Memory) : Nat → List Byte → Memory
  | _, [] => mem
  | a, v :: rest => Memory.place (if a < 256 then mem.set a v else mem) (a + 1) rest

/-! ### Fatal conditions -/

/-- The kind a raise records (R160). -/
def Raise.kind : Raise → FaultKind
  | .outOfBoundsAddress _ => .outOfBounds
  | .outOfBoundsRegister _ => .outOfBounds
  | .unknownInstruction _ => .unknownInstruction
  | .unsupportedAluOperation => .unsupportedAluOperation

/-- The index a raise records (R160). -/
def Raise.index : Raise → Option FaultIndex
  | .outOfBoundsAddress a => some (.address a)
  | .outOfBoundsRegister i => some (.register i)
  | .unknownInstruction op => some (.opcode op)
  | .unsupportedAluOperation => none

/-- The fault record of a raise in a step that began at `pc` (R165). -/
def Raise.record (r : Raise) (pc : Nat) : FaultRecord := { kind := r.kind, pc := pc, index := r.index }

/-- Taking a fatal condition: `state <- Faulted(f)` and nothing else (R166, R169). `s` is the state at the start of the
step, so the instruction has no other effect (the spec's D9 and D10; log 8, 9). -/
def raise (s : State) (r : Raise) : Result := .next (s.setState (.faulted (r.record s.pc)))

/-- Goes on with a checked value, or takes the fatal condition the check raised (R9). -/
def orRaise {α : Type} (s : State) (checked : Except Raise α) (k : α → Result) : Result :=
  match checked with
  | .error r => raise s r
  | .ok v => k v

end Sys2Proof.Machine
end

