-- ==== Sys2Proof/Machine/Flags.lean ====
section
/-! DEFINITION. The one flag, EQ (spec/10_state.md R28). CMP alone writes it; JEQ and JNE alone read it. -/

namespace Sys2Proof.Machine

/-- `EQ <- b` (spec/00_scope.md R8). -/
def State.setEqual (s : State) (b : Bool) : State := { s with equal := b }

/-- The value CMP gives the flag: whole 8-bit equality (spec/43_alu.md R122). -/
def equalFlag (p q : Byte) : Bool := decide (p = q)

end Sys2Proof.Machine
end

