-- ==== Sys2Proof/Machine/Operands.lean ====
section
/-! DEFINITION. The operand forms (spec/30_encoding.md R61, R62): a register index, which is checked before it is used,
and the immediate, which is the byte itself and needs no operation. -/

namespace Sys2Proof.Machine

/-- The operand byte that names a register (R62): the form in which statements speak of an operand byte 0..7. -/
def regByte (i : Fin 8) : Byte := BitVec.ofNat 8 i.val

/-- `CheckReg(i)` (spec/60_exceptions.md R163): the register an operand byte names. No bit is masked off (R62). -/
def checkReg (i : Byte) : Except Raise (Fin 8) :=
  if h : i.toNat < 8 then .ok ⟨i.toNat, h⟩ else .error (.outOfBoundsRegister i)

/-- A meaning with one register operand (formats R and RI). -/
def withReg (s : State) (a : Byte) (k : Fin 8 → Result) : Result := orRaise s (checkReg a) k

/-- A meaning with two register operands (format RR): `a` is checked first, then `b` (spec/60_exceptions.md R167). -/
def withRegs (s : State) (a b : Byte) (k : Fin 8 → Fin 8 → Result) : Result :=
  withReg s a fun ra => withReg s b fun rb => k ra rb

end Sys2Proof.Machine
end

