-- ==== Sys2Proof/Machine/Alu.lean ====
section
/-! DEFINITION. The ALU contract, MUL and CMP (spec/43_alu.md). -/

namespace Sys2Proof.Machine

/-- The operation names the ALU contract speaks of: MUL, and ADD, which is reserved and has no opcode (R120, R123). -/
inductive AluOp where
  | mul
  | add
  deriving DecidableEq, Repr

/-- The ALU sub-operation (R120): both indices checked, the result to the first register, pc by 3. Any operation but MUL
raises UnsupportedAluOperation, which no instruction reaches (R123; log 12). -/
def alu (op : AluOp) (a b : Byte) (s : State) : Result :=
  withRegs s a b fun ra rb =>
    match op with
    | .mul => .next ((s.writeReg ra ((s.readReg ra).toNat * (s.readReg rb).toNat)).advance 3)
    | .add => raise s .unsupportedAluOperation

/-- MUL (R121): `x[a] <- (x[a] * x[b]) mod 256` and `pc <- pc + 3`. -/
def execMul (a b : Byte) (s : State) : Result := alu .mul a b s

/-- CMP (R122): `EQ <- (x[a] = x[b])` and `pc <- pc + 3`. -/
def execCmp (a b : Byte) (s : State) : Result :=
  withRegs s a b fun ra rb => .next ((s.setEqual (equalFlag (s.readReg ra) (s.readReg rb))).advance 3)

end Sys2Proof.Machine
end

