-- ==== Sys2Proof/Machine/Branch.lean ====
section
/-! DEFINITION. JMP, JEQ and JNE (spec/45_branch.md). Every target is the whole value of a register (R150). -/

namespace Sys2Proof.Machine

/-- `CheckReg(a)` and `pc <- x[a]`. -/
def jumpTo (a : Byte) (s : State) : Result := withReg s a fun ra => .next (s.setPc (s.readReg ra).toNat)

/-- JMP (R151): `pc <- x[a]`. -/
def execJmp (a : Byte) (s : State) : Result := jumpTo a s

/-- JEQ (R152): jumps when EQ is true; otherwise `pc <- pc + 2`, and the index is not checked (the spec's D11; log 13). -/
def execJeq (a : Byte) (s : State) : Result := if s.equal then jumpTo a s else .next (s.advance 2)

/-- JNE (R153): jumps when EQ is false; otherwise `pc <- pc + 2`, and the index is not checked (the spec's D11; log 13). -/
def execJne (a : Byte) (s : State) : Result := if s.equal then .next (s.advance 2) else jumpTo a s

end Sys2Proof.Machine
end

