-- ==== Sys2Proof/Machine/Load.lean ====
section
/-! DEFINITION. LDI (spec/41_ldi.md). -/

namespace Sys2Proof.Machine

/-- LDI (R100): `x[a] <- b`, stored unchanged, and `pc <- pc + 3`. -/
def execLdi (a b : Byte) (s : State) : Result :=
  withReg s a fun ra => .next ((s.writeReg ra b.toNat).advance 3)

end Sys2Proof.Machine
end

