-- ==== Sys2Proof/Machine/Stack.lean ====
section
/-! DEFINITION. PUSH and POP (spec/44_stack.md). The statements of each rule are followed in their written order, which
settles PUSH R7 and POP R7 (the spec's D15; log 11); SP wraps mod 256 (the spec's D4; log 10). -/

namespace Sys2Proof.Machine

/-- `x[7] <- (x[7] - 1) mod 256`. -/
def State.decSp (s : State) : State := s.writeReg sp ((s.readReg sp).toNat - 1)

/-- `x[7] <- (x[7] + 1) mod 256`. -/
def State.incSp (s : State) : State := s.writeReg sp ((s.readReg sp).toNat + 1)

/-- The address in SP. -/
def State.spAddr (s : State) : Nat := (s.readReg sp).toNat

/-- PUSH (R141): SP is decremented, then `x[a]`, read after that, is stored at the new SP; `pc <- pc + 2`. -/
def execPush (a : Byte) (s : State) : Result :=
  withReg s a fun ra =>
    orRaise s (memWrite s.mem s.decSp.spAddr (s.decSp.readReg ra)) fun mem =>
      .next ((s.decSp.setMem mem).advance 2)

/-- POP (R142): the byte at SP goes to `x[a]`, then SP, read after that, is incremented; `pc <- pc + 2`. -/
def execPop (a : Byte) (s : State) : Result :=
  withReg s a fun ra =>
    orRaise s (memRead s.mem s.spAddr) fun v =>
      .next ((s.writeReg ra v.toNat).incSp.advance 2)

end Sys2Proof.Machine
end

