-- ==== Sys2Proof/Machine/System.lean ====
section
/-! DEFINITION. PRN and HLT (spec/42_system.md). -/

namespace Sys2Proof.Machine

/-- PRN (R110): `Emit(x[a])` and `pc <- pc + 2`. -/
def execPrn (a : Byte) (s : State) : Result :=
  withReg s a fun ra => .next ((s.emit (s.readReg ra)).advance 2)

/-- HLT (R112): `state <- Halted` and `pc <- pc + 1` (the advance is the spec's D8; log 7). -/
def execHlt (s : State) : Result := .next ((s.setState .halted).advance 1)

end Sys2Proof.Machine
end

