-- ==== Sys2Proof/Syntax.lean ====
section
/-! DEFINITION. The instructions: one constructor for each row of spec/opcode_table.json (spec/30_encoding.md R65), and
the formats of R61. Widths, encodings and spellings are in Sys2Proof/Decode.lean. -/

namespace Sys2Proof

/-- An instruction with its operand bytes. `a` and `b` are the bytes at pc+1 and pc+2, whole and unmasked: a register
index operand may be any byte 0..255, and the meaning checks it when it uses it (R62). -/
inductive Instr where
  | ldi (a b : Byte)
  | prn (a : Byte)
  | hlt
  | mul (a b : Byte)
  | push (a : Byte)
  | pop (a : Byte)
  | cmp (a b : Byte)
  | jmp (a : Byte)
  | jeq (a : Byte)
  | jne (a : Byte)
  deriving DecidableEq, Repr

/-- The ten mnemonics: what an opcode byte names before its operands are read (R65). -/
inductive Mnemonic where
  | ldi | prn | hlt | mul | push | pop | cmp | jmp | jeq | jne
  deriving DecidableEq, Repr

/-- The four formats of R61. -/
inductive Format where
  | n   -- no operand
  | r   -- one register index
  | rr  -- two register indices
  | ri  -- a register index and an immediate
  deriving DecidableEq, Repr

end Sys2Proof
end

