-- ==== Sys2Proof/WellFormed.lean ====
section
/-! DEFINITION. The checks on an instruction and on the opcode bytes, and the opcode map as bytes that passed theirs. -/

namespace Sys2Proof

/-- A register-index byte that names a register: 0..7 (spec/30_encoding.md R62). -/
def isRegIndex (a : Byte) : Bool := decide (a.toNat < 8)

/-- Every register index of the instruction names a register; the immediate of LDI is any byte (R62). An instruction
that fails this check still decodes and still has its meaning: the check of R163 raises OutOfBounds when the index is
used. -/
def Instr.wellFormed : Instr → Bool
  | .ldi a _ => isRegIndex a
  | .prn a => isRegIndex a
  | .hlt => true
  | .mul a b => isRegIndex a && isRegIndex b
  | .push a => isRegIndex a
  | .pop a => isRegIndex a
  | .cmp a b => isRegIndex a && isRegIndex b
  | .jmp a => isRegIndex a
  | .jeq a => isRegIndex a
  | .jne a => isRegIndex a

/-- The ten opcode bytes, in the order of spec/opcode_table.json. -/
def OpcodeBytes.bytes (b : OpcodeBytes) : List Byte :=
  [b.ldi, b.prn, b.hlt, b.mul, b.push, b.pop, b.cmp, b.jmp, b.jeq, b.jne]

/-- The check R66 asks of a model that takes OPCODES as an argument: ten distinct bytes. -/
def OpcodeBytes.distinct (b : OpcodeBytes) : Bool := decide b.bytes.Nodup

/-- An opcode map: ten bytes with the proof that they passed the check of R66. Everything that takes OPCODES (`decode`,
`encode`, `fetch`, `stepWith`, `transition`) takes this type, so none of them runs on ten bytes with a repeat. -/
structure OpcodeMap extends OpcodeBytes where
  valid : toOpcodeBytes.distinct = true
  deriving DecidableEq, Repr

/-- The check on OPCODES (R66): the map of ten distinct bytes, none where two are equal. -/
def OpcodeMap.ofBytes? (b : OpcodeBytes) : Option OpcodeMap :=
  if h : b.distinct = true then some { toOpcodeBytes := b, valid := h } else none

end Sys2Proof
end

