-- ==== Sys2Proof/Decode.lean ====
section
/-! DEFINITION. The Instruction Table, the decoder and the encoder (spec/30_encoding.md R60 to R71), over any opcode map.
`decodeFrom` is the one decoder: `decode` runs it on a list of bytes, and `Machine.fetch` on memory from pc on. -/

namespace Sys2Proof

/-- The default opcode map: the values of the table of R64.
PRESUMED (the spec marks them as LS-8 values from general knowledge, D2 and GK2; log 1), unsafe for a claim that fixes
them; every function below takes any map of ten distinct bytes (R66). -/
def defaultOpcodes : OpcodeMap where
  ldi  := 0x82
  prn  := 0x47
  hlt  := 0x01
  mul  := 0xA2
  push := 0x45
  pop  := 0x46
  cmp  := 0xA7
  jmp  := 0x54
  jeq  := 0x55
  jne  := 0x56
  valid := by decide

/-- `Decode(op)` of R65: the mnemonic an opcode byte names, or none for an illegal opcode (R67). -/
def OpcodeMap.lookup (m : OpcodeMap) (op : Byte) : Option Mnemonic :=
  if op = m.hlt then some .hlt
  else if op = m.ldi then some .ldi
  else if op = m.prn then some .prn
  else if op = m.mul then some .mul
  else if op = m.push then some .push
  else if op = m.pop then some .pop
  else if op = m.cmp then some .cmp
  else if op = m.jmp then some .jmp
  else if op = m.jeq then some .jeq
  else if op = m.jne then some .jne
  else none

/-- The opcode byte of a mnemonic. -/
def OpcodeBytes.opcode (m : OpcodeBytes) : Mnemonic → Byte
  | .ldi => m.ldi
  | .prn => m.prn
  | .hlt => m.hlt
  | .mul => m.mul
  | .push => m.push
  | .pop => m.pop
  | .cmp => m.cmp
  | .jmp => m.jmp
  | .jeq => m.jeq
  | .jne => m.jne

/-- The format of each mnemonic; it does not depend on the opcode map (R61, R66). -/
def Mnemonic.format : Mnemonic → Format
  | .ldi => .ri
  | .prn => .r
  | .hlt => .n
  | .mul => .rr
  | .push => .r
  | .pop => .r
  | .cmp => .rr
  | .jmp => .r
  | .jeq => .r
  | .jne => .r

/-- The width of a format in bytes, the opcode included (R61). -/
def Format.width : Format → Nat
  | .n => 1
  | .r => 2
  | .rr => 3
  | .ri => 3

/-- The mnemonic of an instruction. -/
def Instr.mnemonic : Instr → Mnemonic
  | .ldi _ _ => .ldi
  | .prn _ => .prn
  | .hlt => .hlt
  | .mul _ _ => .mul
  | .push _ => .push
  | .pop _ => .pop
  | .cmp _ _ => .cmp
  | .jmp _ => .jmp
  | .jeq _ => .jeq
  | .jne _ => .jne

/-- The width of an instruction in bytes: its opcode alone gives it (R60, R63). -/
def Instr.width (i : Instr) : Nat := i.mnemonic.format.width

/-- Reads the one operand byte of format R (R70). -/
def readOne {ε : Type} (read : Nat → Except ε Byte) (mk : Byte → Instr) : Except ε Instr :=
  match read 1 with
  | .error e => .error e
  | .ok a => .ok (mk a)

/-- Reads the two operand bytes of formats RR and RI, the lower address first (R70). -/
def readTwo {ε : Type} (read : Nat → Except ε Byte) (mk : Byte → Byte → Instr) : Except ε Instr :=
  match read 1 with
  | .error e => .error e
  | .ok a =>
    match read 2 with
    | .error e => .error e
    | .ok b => .ok (mk a b)

/-- The operand reads of each mnemonic (R61, R70). -/
def readOperands {ε : Type} (read : Nat → Except ε Byte) : Mnemonic → Except ε Instr
  | .ldi => readTwo read .ldi
  | .prn => readOne read .prn
  | .hlt => .ok .hlt
  | .mul => readTwo read .mul
  | .push => readOne read .push
  | .pop => readOne read .pop
  | .cmp => readTwo read .cmp
  | .jmp => readOne read .jmp
  | .jeq => readOne read .jeq
  | .jne => readOne read .jne

/-- The decoder over any source of bytes: `read k` is the byte at offset `k` from the opcode, or the reason it cannot be
read; `unknown op` is the reason for an illegal opcode. The opcode is read first, then exactly the operand bytes its
width covers, in ascending order; an illegal opcode reads no operand (R63, R67, R70). -/
def decodeFrom {ε : Type} (m : OpcodeMap) (unknown : Byte → ε) (read : Nat → Except ε Byte) : Except ε Instr :=
  match read 0 with
  | .error e => .error e
  | .ok op =>
    match m.lookup op with
    | none => .error (unknown op)
    | some k => readOperands read k

/-- Why a list of bytes is no instruction. -/
inductive DecodeError where
  /-- The byte at this offset is needed and the list ends before it. -/
  | missingByte (offset : Nat)
  /-- The opcode is not one of the ten (R67). -/
  | unknownOpcode (op : Byte)
  deriving DecidableEq, Repr

/-- The byte at an offset of a list, or the name of the gap. -/
def byteAt (bytes : List Byte) (k : Nat) : Except DecodeError Byte :=
  match bytes[k]? with
  | some b => .ok b
  | none => .error (.missingByte k)

/-- The instruction at the head of a list of bytes, with the bytes after it. -/
def decode (m : OpcodeMap) (bytes : List Byte) : Except DecodeError (Instr × List Byte) :=
  match decodeFrom m .unknownOpcode (byteAt bytes) with
  | .error e => .error e
  | .ok i => .ok (i, bytes.drop i.width)

/-- The bytes of an instruction, at ascending addresses (R61, R71; spec/20_memory.md R45). -/
def encode (m : OpcodeMap) : Instr → List Byte
  | .ldi a b => [m.ldi, a, b]
  | .prn a => [m.prn, a]
  | .hlt => [m.hlt]
  | .mul a b => [m.mul, a, b]
  | .push a => [m.push, a]
  | .pop a => [m.pop, a]
  | .cmp a b => [m.cmp, a, b]
  | .jmp a => [m.jmp, a]
  | .jeq a => [m.jeq, a]
  | .jne a => [m.jne, a]

/-- The bytes of an instruction given as a table word: the opcode byte is bits 7..0 of `w`, the next byte bits 15..8, the
third bits 23..16; every bit from `nbits` on is 0. Three bytes, the longest width. -/
def tableBytes (nbits w : Nat) : List Byte :=
  let v := w % 2 ^ nbits
  [BitVec.ofNat 8 v, BitVec.ofNat 8 (v / 256), BitVec.ofNat 8 (v / 65536)]

/-- The instruction the decoder reads, under the default opcodes, from a word numbered as spec/opcode_table.json numbers
its bits. -/
def decodeTableWord (nbits w : Nat) : Option Instr :=
  match decode defaultOpcodes (tableBytes nbits w) with
  | .ok (i, _) => some i
  | .error _ => none

/-- The assembler's name of a register byte: `R0` to `R7`; a byte 8..255 has no spelling (R71). -/
def spellReg (a : Byte) : Option String :=
  if a.toNat < 8 then some ("R" ++ toString a.toNat) else none

/-- `MNEMONIC Ra` (R71). -/
def spellOne (name : String) (a : Byte) : Option String :=
  (spellReg a).map (fun ra => name ++ " " ++ ra)

/-- `MNEMONIC Ra, Rb` (R71). -/
def spellTwo (name : String) (a b : Byte) : Option String :=
  (spellReg a).bind fun ra => (spellReg b).map fun rb => name ++ " " ++ ra ++ ", " ++ rb

/-- The assembler form of an instruction (R71, the spec's D14; it has no effect on the meaning). -/
def Instr.spell : Instr → Option String
  | .ldi a b => (spellReg a).map (fun ra => "LDI " ++ ra ++ ", " ++ toString b.toNat)
  | .prn a => spellOne "PRN" a
  | .hlt => some "HLT"
  | .mul a b => spellTwo "MUL" a b
  | .push a => spellOne "PUSH" a
  | .pop a => spellOne "POP" a
  | .cmp a b => spellTwo "CMP" a b
  | .jmp a => spellOne "JMP" a
  | .jeq a => spellOne "JEQ" a
  | .jne a => spellOne "JNE" a

end Sys2Proof
end

