-- ==== Sys2Proof/Machine/Fetch.lean ====
section
/-! DEFINITION. Fetching an instruction from memory (spec/40_execution_loop.md R85; spec/30_encoding.md R70). -/

namespace Sys2Proof.Machine

/-- The instruction at pc: the opcode byte, then exactly the operand bytes of its width, each through MemRead, in
ascending address order. The first check that fails is the one raised (spec/60_exceptions.md R167, checks 1 to 3). -/
def fetch (m : OpcodeMap) (s : State) : Except Raise Instr :=
  decodeFrom m Raise.unknownInstruction fun k => memRead s.mem (s.pc + k)

end Sys2Proof.Machine
end

