-- ==== Sys2Proof/Machine/Step.lean ====
section
/-! DEFINITION. One step of the block (spec/40_execution_loop.md R84, R85). -/

namespace Sys2Proof.Machine

/-- One cycle under any opcode map. A step is enabled exactly when the run state is Running (R84); outside it the answer
names why none is (log 14). A raise in the fetch, and one in the meaning, ends in `Faulted` (R166). -/
def stepWith (m : OpcodeMap) (s : State) : Host.Outcome State Fault Refusal :=
  match s.state with
  | .ready => .fault .notStarted
  | .halted => .fault .halted
  | .faulted f => .fault (.faulted f)
  | .running => orRaise s (fetch m s) fun i => exec i s

/-- One cycle under the default opcode map. -/
def step : State → Host.Outcome State Fault Refusal := stepWith defaultOpcodes

/-- The state with an instruction's bytes placed at pc, and Running, so that the next step fetches and runs it. It stands
for the host's IMAGE and RUN (R92; log 16). Bytes that would lie beyond address 255 have no cell to go to. -/
def State.withFetchWord (s : State) (nbits w : Nat) : State :=
  (s.setMem (s.mem.place s.pc (tableBytes nbits w))).setState .running

end Sys2Proof.Machine
end

