-- ==== Sys2Proof/Machine/Ports.lean ====
section
/-! DEFINITION. The block's ports (spec/40_execution_loop.md R80): RESET with IMAGE and SP_INIT, RUN, STATUS, OUT, and the
transitions of the run-state machine under them (R83). -/

namespace Sys2Proof.Machine

/-- The memory an image gives: byte k at address k, 0 where the image is shorter than 256 bytes (spec/10_state.md R35, the
spec's D6; log 4). Bytes past the 256th are no part of IMAGE (log 4). -/
def Memory.ofImage (image : List Byte) : Memory := Memory.place [] 0 image

/-- RESET (spec/70_reset_and_hazards.md R180), from any state: every piece of state at its reset value. -/
def State.resetWith (image : List Byte) (spInit : Byte) : State where
  mem   := Memory.ofImage image
  x     := #v[0, 0, 0, 0, 0, 0, 0, spInit]
  pc    := 0
  equal := false
  state := .ready
  out   := []

/-- RUN (R82): Ready goes to Running; in any other run state it has no effect (the spec's D20; log 17). -/
def State.assertRun (s : State) : State :=
  match s.state with
  | .ready => s.setState .running
  | .running => s
  | .halted => s
  | .faulted _ => s

/-- The events of the run-state machine (R83). -/
inductive Event where
  | reset (image : List Byte) (spInit : Byte)
  | run
  | step
  deriving DecidableEq, Repr

/-- What an event does to the block (R83). -/
def transition (m : OpcodeMap) (e : Event) (s : State) : Result :=
  match e with
  | .reset image spInit => .next (State.resetWith image spInit)
  | .run => .next s.assertRun
  | .step => stepWith m s

/-- The code of a run state on STATUS (R80, the spec's D23; log 18). -/
def RunState.code : RunState → Nat
  | .ready => 0
  | .running => 1
  | .halted => 2
  | .faulted _ => 3

/-- The code of a fault kind on STATUS (spec/60_exceptions.md R160, the spec's D23; log 18). -/
def FaultKind.code : FaultKind → Nat
  | .outOfBounds => 1
  | .unknownInstruction => 2
  | .unsupportedAluOperation => 3

/-- STATUS (R80): the code of the run state and, when it is Faulted, the fault record. -/
def State.status (s : State) : Nat × Option FaultRecord :=
  match s.state with
  | .faulted f => (s.state.code, some f)
  | .ready => (s.state.code, none)
  | .running => (s.state.code, none)
  | .halted => (s.state.code, none)

/-- The ASCII code of a decimal digit. -/
def asciiDigit (d : Nat) : Byte := BitVec.ofNat 8 (0x30 + d % 10)

/-- The decimal numeral of a byte in ASCII, with no sign and no leading zeros (spec/42_system.md R111). -/
def decimal (v : Byte) : List Byte :=
  if v.toNat < 10 then [asciiDigit v.toNat]
  else if v.toNat < 100 then [asciiDigit (v.toNat / 10), asciiDigit v.toNat]
  else [asciiDigit (v.toNat / 100), asciiDigit (v.toNat / 10), asciiDigit v.toNat]

/-- The text the host renders from OUT: each element's numeral, then a line feed (R111, the spec's D13; log 19). -/
def renderOut (out : List Byte) : List Byte := out.flatMap fun v => decimal v ++ [0x0A]

end Sys2Proof.Machine
end

