-- ==== Sys2Proof/Safety.lean ====
section
/-! DEFINITION. What the claims speak of: the invariant of every step, and the three ends of a run
(spec/40_execution_loop.md R91). -/

namespace Sys2Proof.Machine

/-- A fault record a step can leave: an out-of-range address is 256, an out-of-range register byte is 8..255, an unknown
opcode has no handler in the map, and no record says UnsupportedAluOperation (spec/60_exceptions.md R160, R161, R164). -/
def FaultRecord.coherent (m : OpcodeMap) (f : FaultRecord) : Prop :=
  match f.kind, f.index with
  | .outOfBounds, some (.address a) => a = 256
  | .outOfBounds, some (.register i) => 8 ≤ i.toNat
  | .unknownInstruction, some (.opcode op) => m.lookup op = none
  | _, _ => False

/-- The invariant: memory in its canonical form, pc in 0..256 (spec/10_state.md R25), and a Faulted state's record
coherent and made at the present pc (spec/60_exceptions.md R165, R166). -/
def State.Inv (m : OpcodeMap) (s : State) : Prop :=
  s.mem.wf = true ∧ s.pc ≤ 256 ∧ ∀ f, s.state = .faulted f → f.pc = s.pc ∧ f.coherent m

/-- The answer is a next state that ended the run with this fatal condition. It says the kind alone: the record and what
else the state holds are the spec's own decisions (D9, D10). -/
def RaisesKind (kind : FaultKind) (r : Result) : Prop := ∃ t f, r = .next t ∧ t.state = .faulted f ∧ f.kind = kind

/-- The state after exactly `k` enabled steps from `s`, if there are that many. -/
def after (m : OpcodeMap) : Nat → State → Option State
  | 0, s => some s
  | k + 1, s =>
    match stepWith m s with
    | .next t => after m k t
    | .fault _ => none
    | .refused _ => none

/-- The run from `s` halts: a finite run whose last state is Halted (R91). -/
def Halts (m : OpcodeMap) (s : State) : Prop := ∃ k t, after m k s = some t ∧ t.state = .halted

/-- The run from `s` faults: a finite run whose last state is Faulted (R91). -/
def Faults (m : OpcodeMap) (s : State) : Prop := ∃ k t f, after m k s = some t ∧ t.state = .faulted f

/-- The run from `s` hangs: every number of steps is possible and leaves the block Running (R89, R91). -/
def Hangs (m : OpcodeMap) (s : State) : Prop := ∀ k, ∃ t, after m k s = some t ∧ t.state = .running

end Sys2Proof.Machine
end

