-- ==== Sys2Proof/Certificates/Slice0/Obligations.lean ====
section
/-! DEFINITION. The statements for the provers. OBLIGATIONS.json gives each its tier, basis and rules.
`m` is any opcode map: the block's OPCODES are a parameter (spec/00_scope.md R6), a map is ten bytes that passed the check
of R66, and `step` is the case of the default map. A register operand byte 0..7 is written `regByte r` for a register
number `r`; a byte that names no register is any `a` with `8 ≤ a.toNat`. -/

open Sys2Proof Sys2Proof.Machine

/-! ### Encoding, decoding, fetching -/

/-- Decoding an encoded instruction gives it back, with the bytes after it, for every instruction, every operand byte and
every opcode map (spec/30_encoding.md R61, R65, R66). -/
def Obligations.DecodeEncodeRoundTrip : Prop :=
  ∀ (m : OpcodeMap) (i : Instr) (rest : List Byte),
    decode m (encode m i ++ rest) = .ok (i, rest)

/-- The other direction: what the decoder accepts is the encoding of the instruction it gives, so no bit is masked off or
ignored (R62, R63). -/
def Obligations.EncodeDecodeRoundTrip : Prop :=
  ∀ (m : OpcodeMap) (bytes : List Byte) (i : Instr) (rest : List Byte),
    decode m bytes = .ok (i, rest) → encode m i ++ rest = bytes

/-- The check on OPCODES (spec/30_encoding.md R66): ten bytes make an opcode map exactly when the ten mnemonics have ten
distinct opcodes, and the map is those bytes. Under a map decoding is well defined, a byte naming a mnemonic exactly when
it is that mnemonic's opcode. Widths, formats and operand bytes do not depend on the map. -/
def Obligations.OpcodeMapIsChecked : Prop :=
  (∀ b : OpcodeBytes, (∃ m, OpcodeMap.ofBytes? b = some m ∧ m.toOpcodeBytes = b) ↔
    ∀ k k' : Mnemonic, b.opcode k = b.opcode k' → k = k') ∧
  (∀ b : OpcodeBytes, OpcodeMap.ofBytes? b = none ↔ ∃ k k' : Mnemonic, k ≠ k' ∧ b.opcode k = b.opcode k') ∧
  (∀ (m : OpcodeMap) (op : Byte) (k : Mnemonic), m.lookup op = some k ↔ op = m.opcode k) ∧
  (∀ (m m' : OpcodeMap) (i : Instr), (encode m i).length = i.mnemonic.format.width ∧
    (encode m i).drop 1 = (encode m' i).drop 1)

/-- A byte is refused as an opcode, by its name, exactly when it is not one of the ten, whatever follows it; a map
leaves 246 illegal bytes (R67). -/
def Obligations.IllegalOpcodesAreRefused : Prop :=
  (∀ (m : OpcodeMap) (op : Byte) (rest : List Byte),
    op ∉ m.bytes ↔ decode m (op :: rest) = .error (.unknownOpcode op)) ∧
  (∀ m : OpcodeMap,
    ((List.range 256).filter fun n => decide (m.lookup (BitVec.ofNat 8 n) = none)).length = 246)

/-- Words written out from R61 and R64, one for each format and more, decode to the instructions they stand for. -/
def Obligations.SpecWordsDecode : Prop :=
  decode defaultOpcodes [0b10000010, 0b00000000, 0b00101010] = .ok (.ldi 0 42, []) ∧
  decode defaultOpcodes [0b10100010, 0b00000000, 0b00000001] = .ok (.mul 0 1, []) ∧
  decode defaultOpcodes [0b01000101, 0b00000010, 0b11111111] = .ok (.push 2, [0xFF]) ∧
  decode defaultOpcodes [0b01010110, 0b00001000] = .ok (.jne 8, []) ∧
  decode defaultOpcodes [0b00000001, 0b01000111] = .ok (.hlt, [0x47]) ∧
  decode defaultOpcodes [0b10100000, 0b00000000, 0b00000001] = .error (.unknownOpcode 0xA0) ∧
  decode defaultOpcodes [0b10100111, 0b00000000] = .error (.missingByte 2)

/-- A step runs the decoded instruction: a Running step is `exec` of the fetched instruction, the loop adding nothing to
pc (spec/40_execution_loop.md R85, R86); where memory holds the bytes of an instruction from pc on, that instruction is
the fetched one; `step` is the case of the default map. -/
def Obligations.StepRunsDecodedInstruction : Prop :=
  (∀ (m : OpcodeMap) (s : State) (i : Instr), s.state = .running → fetch m s = .ok i → stepWith m s = exec i s) ∧
  (∀ (m : OpcodeMap) (s : State) (i : Instr), s.pc + i.width ≤ 256 →
    (∀ k v, (encode m i)[k]? = some v → s.mem.get (s.pc + k) = v) → fetch m s = .ok i) ∧
  (∀ s : State, step s = stepWith defaultOpcodes s)

/-- No step is enabled outside Running (R84). That the answer is then a fault of its own name is the model's choice
(notes/assumptions/14.md). -/
def Obligations.NoStepOutsideRunning : Prop :=
  ∀ (m : OpcodeMap) (s : State),
    (s.state = .ready → stepWith m s = .fault .notStarted) ∧
    (s.state = .halted → stepWith m s = .fault .halted) ∧
    (∀ f, s.state = .faulted f → stepWith m s = .fault (.faulted f)) ∧
    (∀ t, stepWith m s = .next t → s.state = .running)

/-- Every fatal condition of the fetch, in the order of spec/60_exceptions.md R167: the opcode's address, the opcode, the
first operand byte, the second. The record and that nothing else changes are the spec's own choice (D9, D10;
notes/assumptions/8.md and 9.md). -/
def Obligations.FetchRaisesInOrder : Prop :=
  ∀ (m : OpcodeMap) (s : State), s.state = .running →
    (256 ≤ s.pc → stepWith m s =
      .next { s with state := .faulted ⟨.outOfBounds, s.pc, some (.address s.pc)⟩ }) ∧
    (s.pc < 256 → s.mem.get s.pc ∉ m.bytes → stepWith m s =
      .next { s with state := .faulted ⟨.unknownInstruction, s.pc, some (.opcode (s.mem.get s.pc))⟩ }) ∧
    (∀ k, s.pc < 256 → m.lookup (s.mem.get s.pc) = some k → k.format ≠ .n → 256 ≤ s.pc + 1 → stepWith m s =
      .next { s with state := .faulted ⟨.outOfBounds, s.pc, some (.address (s.pc + 1))⟩ }) ∧
    (∀ k, s.pc + 1 < 256 → m.lookup (s.mem.get s.pc) = some k → k.format = .rr ∨ k.format = .ri → 256 ≤ s.pc + 2 →
      stepWith m s = .next { s with state := .faulted ⟨.outOfBounds, s.pc, some (.address (s.pc + 2))⟩ })

/-- A Running step raises UnknownInstruction exactly when the opcode byte fetched has no handler, whatever the bytes after
it are and wherever it stands, at address 255 too: no operand byte is read. No step follows it: it is not recoverable
(spec/60_exceptions.md R162). -/
def Obligations.UnknownOpcodeRaises : Prop :=
  ∀ (m : OpcodeMap) (s : State), s.state = .running →
    (RaisesKind .unknownInstruction (stepWith m s) ↔ s.pc < 256 ∧ s.mem.get s.pc ∉ m.bytes) ∧
    (s.pc < 256 → s.mem.get s.pc ∉ m.bytes → ∀ t u, stepWith m s = .next t → stepWith m t ≠ .next u)

/-! ### Operands and memory -/

/-- CheckReg: 0..7 pass and name that register; 8..255 raise OutOfBounds with the byte itself as index (R163). -/
def Obligations.CheckRegAcceptsExactlyEight : Prop :=
  ∀ a : Byte,
    (a.toNat < 8 → ∃ r : Fin 8, checkReg a = .ok r ∧ r.val = a.toNat) ∧
    (8 ≤ a.toNat → checkReg a = .error (.outOfBoundsRegister a))

/-- The two access primitives (spec/20_memory.md R42, R43): an address outside 0..255 raises OutOfBounds with that
address, for a read and for a write; inside, a read gives the byte, and a write makes exactly its own cell read as the
byte written, keeping the canonical form. -/
def Obligations.MemoryPrimitivesAreBounded : Prop :=
  (∀ (mem : Memory) (a : Nat) (v : Byte), 256 ≤ a →
    memRead mem a = .error (.outOfBoundsAddress a) ∧ memWrite mem a v = .error (.outOfBoundsAddress a)) ∧
  (∀ (mem : Memory) (a : Nat), a < 256 → memRead mem a = .ok (mem.get a)) ∧
  (∀ (mem : Memory) (a : Nat) (v : Byte), mem.wf = true → a < 256 →
    ∃ mem', memWrite mem a v = .ok mem' ∧ mem'.wf = true ∧ memRead mem' a = .ok v ∧
      ∀ b, b ≠ a → memRead mem' b = memRead mem b)

/-! ### The ten instructions: what each gives, and where it raises

In each, the equation is the instruction's completion: the next state whole, so it is a frame as well. -/

/-- LDI (spec/41_ldi.md R100): its encoding; its effect, as a meaning and as a step from memory; OutOfBounds on a bad
register index, and on an operand byte past address 255. -/
def Obligations.LdiRule : Prop :=
  (∀ (m : OpcodeMap) (a b : Byte), decode m [m.ldi, a, b] = .ok (.ldi a b, [])) ∧
  (∀ (s : State) (r : Fin 8) (b : Byte),
    exec (.ldi (regByte r) b) s = .next { s with x := s.x.set r.val b r.isLt, pc := s.pc + 3 }) ∧
  (∀ (m : OpcodeMap) (s : State) (r : Fin 8), s.state = .running → s.pc + 2 < 256 →
    s.mem.get s.pc = m.ldi → s.mem.get (s.pc + 1) = regByte r →
    stepWith m s = .next { s with x := s.x.set r.val (s.mem.get (s.pc + 2)) r.isLt, pc := s.pc + 3 }) ∧
  (∀ (s : State) (a b : Byte), 8 ≤ a.toNat → RaisesKind .outOfBounds (exec (.ldi a b) s)) ∧
  (∀ (m : OpcodeMap) (s : State), s.state = .running → s.mem.get s.pc = m.ldi →
    s.pc = 254 ∨ s.pc = 255 → RaisesKind .outOfBounds (stepWith m s))

/-- PRN (spec/42_system.md R110): as LDI's statement; a PRN that faults emits nothing, and no other instruction emits. -/
def Obligations.PrnRule : Prop :=
  (∀ (m : OpcodeMap) (a : Byte), decode m [m.prn, a] = .ok (.prn a, [])) ∧
  (∀ (s : State) (r : Fin 8),
    exec (.prn (regByte r)) s = .next { s with out := s.out ++ [s.x[r]], pc := s.pc + 2 }) ∧
  (∀ (s : State) (a : Byte), 8 ≤ a.toNat →
    RaisesKind .outOfBounds (exec (.prn a) s) ∧ ∀ t, exec (.prn a) s = .next t → t.out = s.out) ∧
  (∀ (i : Instr) (s t : State), i.mnemonic ≠ .prn → exec i s = .next t → t.out = s.out) ∧
  (∀ (m : OpcodeMap) (s : State) (r : Fin 8), s.state = .running → s.pc + 1 < 256 →
    s.mem.get s.pc = m.prn → s.mem.get (s.pc + 1) = regByte r →
    stepWith m s = .next { s with out := s.out ++ [s.x[r]], pc := s.pc + 2 }) ∧
  (∀ (m : OpcodeMap) (s : State), s.state = .running → s.mem.get s.pc = m.prn → s.pc = 255 →
    RaisesKind .outOfBounds (stepWith m s) ∧ ∀ t, stepWith m s = .next t → t.out = s.out)

/-- HLT: the run state becomes Halted; it reads no operand byte, so it does not fault at address 255. That pc advances by
1 is the spec's own choice (D8; notes/assumptions/7.md). -/
def Obligations.HltRule : Prop :=
  (∀ s : State, exec .hlt s = .next { s with state := .halted, pc := s.pc + 1 }) ∧
  (∀ (m : OpcodeMap) (s : State), s.state = .running → s.pc < 256 → s.mem.get s.pc = m.hlt →
    stepWith m s = .next { s with state := .halted, pc := s.pc + 1 })

/-- MUL (spec/43_alu.md R121): the product of the two register values, exact, modulo 256, to the first register. -/
def Obligations.MulRule : Prop :=
  (∀ (m : OpcodeMap) (a b : Byte), decode m [m.mul, a, b] = .ok (.mul a b, [])) ∧
  (∀ (s : State) (r q : Fin 8), exec (.mul (regByte r) (regByte q)) s =
    .next { s with
      x := s.x.set r.val (BitVec.ofNat 8 (s.x[r].toNat * s.x[q].toNat % 256)) r.isLt
      pc := s.pc + 3 }) ∧
  (∀ (m : OpcodeMap) (s : State) (r q : Fin 8), s.state = .running → s.pc + 2 < 256 →
    s.mem.get s.pc = m.mul → s.mem.get (s.pc + 1) = regByte r → s.mem.get (s.pc + 2) = regByte q →
    stepWith m s = .next { s with
      x := s.x.set r.val (BitVec.ofNat 8 (s.x[r].toNat * s.x[q].toNat % 256)) r.isLt
      pc := s.pc + 3 }) ∧
  (∀ (s : State) (a b : Byte), 8 ≤ a.toNat ∨ 8 ≤ b.toNat → RaisesKind .outOfBounds (exec (.mul a b) s)) ∧
  (∀ (m : OpcodeMap) (s : State), s.state = .running → s.mem.get s.pc = m.mul →
    s.pc = 254 ∨ s.pc = 255 → RaisesKind .outOfBounds (stepWith m s))

/-- CMP (spec/43_alu.md R122): EQ is written every time, with the equality of the whole 8-bit values; no register
changes; a faulting CMP leaves EQ unchanged; no other instruction writes EQ. -/
def Obligations.CmpRule : Prop :=
  (∀ (m : OpcodeMap) (a b : Byte), decode m [m.cmp, a, b] = .ok (.cmp a b, [])) ∧
  (∀ (s : State) (r q : Fin 8), exec (.cmp (regByte r) (regByte q)) s =
    .next { s with equal := decide (s.x[r].toNat = s.x[q].toNat), pc := s.pc + 3 }) ∧
  (∀ (s : State) (a b : Byte), 8 ≤ a.toNat ∨ 8 ≤ b.toNat →
    RaisesKind .outOfBounds (exec (.cmp a b) s) ∧ ∀ t, exec (.cmp a b) s = .next t → t.equal = s.equal) ∧
  (∀ (i : Instr) (s t : State), i.mnemonic ≠ .cmp → exec i s = .next t → t.equal = s.equal) ∧
  (∀ (m : OpcodeMap) (s : State) (r q : Fin 8), s.state = .running → s.pc + 2 < 256 →
    s.mem.get s.pc = m.cmp → s.mem.get (s.pc + 1) = regByte r → s.mem.get (s.pc + 2) = regByte q →
    stepWith m s = .next { s with equal := decide (s.x[r].toNat = s.x[q].toNat), pc := s.pc + 3 }) ∧
  (∀ (m : OpcodeMap) (s : State), s.state = .running → s.mem.get s.pc = m.cmp →
    s.pc = 254 ∨ s.pc = 255 →
    RaisesKind .outOfBounds (stepWith m s) ∧ ∀ t, stepWith m s = .next t → t.equal = s.equal)

/-- PUSH (spec/44_stack.md): SP is decremented modulo 256, and the cell at the new SP reads as the operand register read
after that. The wrap (D4; notes/assumptions/10.md) and the value PUSH R7 stores (D15; notes/assumptions/11.md) are the
spec's own choice. -/
def Obligations.PushRule : Prop :=
  (∀ (s : State) (r : Fin 8), s.mem.wf = true →
    ∃ mem, exec (.push (regByte r)) s =
        .next { s with x := s.x.set 7 (s.x[7] - 1), mem := mem, pc := s.pc + 2 } ∧
      mem.wf = true ∧
      ∀ a, mem.get a =
        if a = (s.x[7] - 1).toNat then (if r = 7 then s.x[7] - 1 else s.x[r]) else s.mem.get a) ∧
  (∀ (s : State) (a : Byte), 8 ≤ a.toNat → RaisesKind .outOfBounds (exec (.push a) s)) ∧
  (∀ (m : OpcodeMap) (s : State), s.state = .running → s.mem.get s.pc = m.push → s.pc = 255 →
    RaisesKind .outOfBounds (stepWith m s))

/-- POP (spec/44_stack.md): the byte at SP goes to the operand register, then SP, read after that, is incremented modulo
256. The wrap (D4; notes/assumptions/10.md) and what POP R7 leaves (D15; notes/assumptions/11.md) are the spec's own
choice. -/
def Obligations.PopRule : Prop :=
  (∀ (s : State) (r : Fin 8), r ≠ 7 → exec (.pop (regByte r)) s =
    .next { s with
      x := (s.x.set r.val (s.mem.get s.x[7].toNat) r.isLt).set 7 (s.x[7] + 1)
      pc := s.pc + 2 }) ∧
  (∀ s : State, exec (.pop (regByte 7)) s =
    .next { s with x := s.x.set 7 (s.mem.get s.x[7].toNat + 1), pc := s.pc + 2 }) ∧
  (∀ (s : State) (a : Byte), 8 ≤ a.toNat → RaisesKind .outOfBounds (exec (.pop a) s)) ∧
  (∀ (m : OpcodeMap) (s : State), s.state = .running → s.mem.get s.pc = m.pop → s.pc = 255 →
    RaisesKind .outOfBounds (stepWith m s))

/-- JMP (spec/45_branch.md R151): pc becomes the whole value of the register, not advanced further; a JMP to its own
address hangs. -/
def Obligations.JmpRule : Prop :=
  (∀ (m : OpcodeMap) (a : Byte), decode m [m.jmp, a] = .ok (.jmp a, [])) ∧
  (∀ (s : State) (r : Fin 8), exec (.jmp (regByte r)) s = .next { s with pc := s.x[r].toNat }) ∧
  (∀ (m : OpcodeMap) (s : State) (r : Fin 8), s.state = .running → s.pc + 1 < 256 →
    s.mem.get s.pc = m.jmp → s.mem.get (s.pc + 1) = regByte r →
    stepWith m s = .next { s with pc := s.x[r].toNat } ∧ (s.x[r].toNat = s.pc → Hangs m s)) ∧
  (∀ (s : State) (a : Byte), 8 ≤ a.toNat → RaisesKind .outOfBounds (exec (.jmp a) s)) ∧
  (∀ (m : OpcodeMap) (s : State), s.state = .running → s.mem.get s.pc = m.jmp → s.pc = 255 →
    RaisesKind .outOfBounds (stepWith m s))

/-- JEQ (spec/45_branch.md): with EQ true it jumps to the register's value; with EQ false it falls through by 2, for
every operand byte. That the index is checked only when the jump is taken is the spec's own choice (D11;
notes/assumptions/13.md). The operand byte is read in both cases. -/
def Obligations.JeqRule : Prop :=
  (∀ (s : State) (r : Fin 8), s.equal = true → exec (.jeq (regByte r)) s = .next { s with pc := s.x[r].toNat }) ∧
  (∀ (s : State) (a : Byte), s.equal = false → exec (.jeq a) s = .next { s with pc := s.pc + 2 }) ∧
  (∀ (s : State) (a : Byte), s.equal = true → 8 ≤ a.toNat → RaisesKind .outOfBounds (exec (.jeq a) s)) ∧
  (∀ (m : OpcodeMap) (s : State), s.state = .running → s.mem.get s.pc = m.jeq → s.pc = 255 →
    RaisesKind .outOfBounds (stepWith m s))

/-- JNE (spec/45_branch.md): with EQ false it jumps to the register's value; with EQ true it falls through by 2, for
every operand byte. That the index is checked only when the jump is taken is the spec's own choice (D11;
notes/assumptions/13.md). The operand byte is read in both cases. -/
def Obligations.JneRule : Prop :=
  (∀ (s : State) (r : Fin 8), s.equal = false → exec (.jne (regByte r)) s = .next { s with pc := s.x[r].toNat }) ∧
  (∀ (s : State) (a : Byte), s.equal = true → exec (.jne a) s = .next { s with pc := s.pc + 2 }) ∧
  (∀ (s : State) (a : Byte), s.equal = false → 8 ≤ a.toNat → RaisesKind .outOfBounds (exec (.jne a) s)) ∧
  (∀ (m : OpcodeMap) (s : State), s.state = .running → s.mem.get s.pc = m.jne → s.pc = 255 →
    RaisesKind .outOfBounds (stepWith m s))

/-- The ALU contract (R120), for both names it speaks of: MUL writes the truncated product to the first register and
advances pc by 3, writing no flag; any other name raises UnsupportedAluOperation once both indices are checked; an index
outside [0,8) raises OutOfBounds. -/
def Obligations.AluContract : Prop :=
  (∀ (s : State) (r q : Fin 8), alu .mul (regByte r) (regByte q) s =
    .next { s with
      x := s.x.set r.val (BitVec.ofNat 8 (s.x[r].toNat * s.x[q].toNat % 256)) r.isLt
      pc := s.pc + 3 }) ∧
  (∀ (s : State) (r q : Fin 8) (op : AluOp), op ≠ .mul →
    RaisesKind .unsupportedAluOperation (alu op (regByte r) (regByte q) s)) ∧
  (∀ (s : State) (a b : Byte) (op : AluOp), 8 ≤ a.toNat ∨ 8 ≤ b.toNat → RaisesKind .outOfBounds (alu op a b s))

/-- What a register index outside 0..7 leaves, for every instruction that uses it: `a` is checked before `b`, the record
holds the byte, and nothing else changes. The record, the order and the precision are the spec's own choice (D9, D10;
notes/assumptions/8.md and 9.md); so is the check only on a taken JEQ or JNE (D11; notes/assumptions/13.md). -/
def Obligations.BadRegisterIndexRecord : Prop :=
  (∀ (s : State) (a b : Byte) (i : Instr), 8 ≤ a.toNat →
    i = .ldi a b ∨ i = .prn a ∨ i = .mul a b ∨ i = .push a ∨ i = .pop a ∨ i = .cmp a b ∨ i = .jmp a ∨
      (i = .jeq a ∧ s.equal = true) ∨ (i = .jne a ∧ s.equal = false) →
    exec i s = .next { s with state := .faulted ⟨.outOfBounds, s.pc, some (.register a)⟩ }) ∧
  (∀ (s : State) (r : Fin 8) (b : Byte) (i : Instr), 8 ≤ b.toNat → i = .mul (regByte r) b ∨ i = .cmp (regByte r) b →
    exec i s = .next { s with state := .faulted ⟨.outOfBounds, s.pc, some (.register b)⟩ })

/-! ### Frames: what a next state leaves unchanged, on every operand

On an operand that raises, that nothing but the run state changes is the spec's own choice (D9; notes/assumptions/8.md). -/

/-- LDI and MUL: every register but the one `a` names, EQ, the output and every byte of memory. -/
def Obligations.RegisterWriteFrame : Prop :=
  ∀ (s t : State) (a b : Byte), exec (.ldi a b) s = .next t ∨ exec (.mul a b) s = .next t →
    (∀ r : Fin 8, regByte r ≠ a → t.x[r] = s.x[r]) ∧ t.equal = s.equal ∧ t.out = s.out ∧
    (∀ addr, t.mem.get addr = s.mem.get addr) ∧ (t.state = s.state ∨ ∃ f, t.state = .faulted f)

/-- PRN, HLT, CMP, JMP, JEQ and JNE: every register and every byte of memory; EQ but for CMP; the output but for PRN; the
run state but for HLT and a raise. -/
def Obligations.NoRegisterWriteFrame : Prop :=
  ∀ (s t : State) (i : Instr), i.mnemonic ∈ [Mnemonic.prn, .hlt, .cmp, .jmp, .jeq, .jne] → exec i s = .next t →
    t.x = s.x ∧ (∀ addr, t.mem.get addr = s.mem.get addr) ∧
    (i.mnemonic ≠ .cmp → t.equal = s.equal) ∧
    (i.mnemonic ≠ .prn → t.out = s.out) ∧
    (i.mnemonic ≠ .hlt → t.state = s.state ∨ ∃ f, t.state = .faulted f)

/-- PUSH: every register but SP, EQ, the output, and every byte of memory but the one at the decremented SP. That SP wraps,
from 0 to 255, is the spec's own choice (D4; notes/assumptions/10.md). -/
def Obligations.PushFrame : Prop :=
  ∀ (s t : State) (a : Byte), s.mem.wf = true → exec (.push a) s = .next t →
    (∀ r : Fin 8, r ≠ 7 → t.x[r] = s.x[r]) ∧ t.equal = s.equal ∧ t.out = s.out ∧
    (∀ addr, addr ≠ s.decSp.spAddr → t.mem.get addr = s.mem.get addr) ∧
    (t.state = s.state ∨ ∃ f, t.state = .faulted f)

/-- POP: every register but SP and the one `a` names, EQ, the output and every byte of memory. -/
def Obligations.PopFrame : Prop :=
  ∀ (s t : State) (a : Byte), exec (.pop a) s = .next t →
    (∀ r : Fin 8, r ≠ 7 → regByte r ≠ a → t.x[r] = s.x[r]) ∧ t.equal = s.equal ∧ t.out = s.out ∧
    (∀ addr, t.mem.get addr = s.mem.get addr) ∧ (t.state = s.state ∨ ∃ f, t.state = .faulted f)

/-! ### Whole-machine rules -/

/-- Only CMP changes EQ, over all bytes a step can fetch (spec/10_state.md, flags). -/
def Obligations.OnlyCmpChangesEqual : Prop :=
  ∀ (m : OpcodeMap) (s t : State), stepWith m s = .next t → t.equal ≠ s.equal → ∃ a b, fetch m s = .ok (.cmp a b)

/-- Only JEQ and JNE read EQ: any other instruction but CMP does the same whatever EQ is and leaves it, and CMP gives the
same state whatever EQ was. -/
def Obligations.OnlyConditionalJumpsReadEqual : Prop :=
  (∀ (s t : State) (i : Instr) (b : Bool), i.mnemonic ∉ [Mnemonic.jeq, .jne, .cmp] → exec i s = .next t →
    exec i { s with equal := b } = .next { t with equal := b }) ∧
  (∀ (s : State) (r q : Fin 8) (b : Bool),
    exec (.cmp (regByte r) (regByte q)) { s with equal := b } = exec (.cmp (regByte r) (regByte q)) s)

/-- The output stream (spec/10_state.md R30): empty at reset; a step leaves it, or is a PRN that appends the one byte of
its register; a PRN of a register always appends it; a fault leaves it. -/
def Obligations.OnlyPrnAppendsOutput : Prop :=
  (∀ (image : List Byte) (spInit : Byte), (State.resetWith image spInit).out = []) ∧
  (∀ (m : OpcodeMap) (s t : State), stepWith m s = .next t →
    t.out = s.out ∨ ∃ r : Fin 8, fetch m s = .ok (.prn (regByte r)) ∧ t.out = s.out ++ [s.x[r]]) ∧
  (∀ (m : OpcodeMap) (s : State) (r : Fin 8), s.state = .running → fetch m s = .ok (.prn (regByte r)) →
    ∃ t, stepWith m s = .next t ∧ t.out = s.out ++ [s.x[r]]) ∧
  (∀ (m : OpcodeMap) (s t : State) (f : FaultRecord), stepWith m s = .next t → t.state = .faulted f → t.out = s.out)

/-- Only PUSH changes memory while the block runs (spec/20_memory.md, the address space). -/
def Obligations.OnlyPushChangesMemory : Prop :=
  ∀ (m : OpcodeMap) (s t : State), stepWith m s = .next t → t.mem ≠ s.mem → ∃ a, fetch m s = .ok (.push a)

/-- A step that does not end in Faulted moves pc by the width of its instruction, or is a jump and takes pc to the value
of its register; the loop adds nothing (spec/40_execution_loop.md R86). HLT's width in it is the spec's own choice (D8;
notes/assumptions/7.md). -/
def Obligations.PcMovesByWidthOrJump : Prop :=
  ∀ (m : OpcodeMap) (s t : State), stepWith m s = .next t → (∀ f, t.state ≠ .faulted f) →
    ∃ i, fetch m s = .ok i ∧
      (t.pc = s.pc + i.width ∨
        ∃ r : Fin 8, (i = .jmp (regByte r) ∨ (i = .jeq (regByte r) ∧ s.equal = true) ∨
          (i = .jne (regByte r) ∧ s.equal = false)) ∧ t.pc = s.x[r].toNat)

/-- Dispatch is exhaustive (R90): every byte names one of the ten mnemonics or raises UnknownInstruction as an opcode,
and every Running step answers a next state. -/
def Obligations.DispatchIsExhaustive : Prop :=
  (∀ (m : OpcodeMap) (op : Byte),
    (∃ k, m.lookup op = some k ∧ op = m.opcode k) ∨
    (m.lookup op = none ∧ ∀ s : State, s.state = .running → s.pc < 256 → s.mem.get s.pc = op →
      RaisesKind .unknownInstruction (stepWith m s))) ∧
  (∀ (m : OpcodeMap) (s : State), s.state = .running → ∃ t, stepWith m s = .next t)

/-- A fault is precise: a step that ends in Faulted changes the run state and nothing else, and its record holds the pc
the step began with. The spec's own choice (D9, D10; notes/assumptions/8.md and 9.md). -/
def Obligations.FaultIsPrecise : Prop :=
  ∀ (m : OpcodeMap) (s t : State) (f : FaultRecord), stepWith m s = .next t → t.state = .faulted f →
    t = { s with state := .faulted f } ∧ f.pc = s.pc

/-- No step raises UnsupportedAluOperation, and no instruction does, on any operands in any state that is not already
Faulted (spec/60_exceptions.md R164). -/
def Obligations.UnsupportedAluNeverRaised : Prop :=
  (∀ (m : OpcodeMap) (s : State), ¬ RaisesKind .unsupportedAluOperation (stepWith m s)) ∧
  (∀ (i : Instr) (s : State), (∀ f, s.state ≠ .faulted f) → ¬ RaisesKind .unsupportedAluOperation (exec i s))

/-- The transitions of the run-state machine (spec/40_execution_loop.md R83), and that there are no others. -/
def Obligations.RunStateTransitions : Prop :=
  ∀ m : OpcodeMap,
    (∀ (s : State) (image : List Byte) (spInit : Byte),
      ∃ t, transition m (.reset image spInit) s = .next t ∧ t.state = .ready) ∧
    (∀ s : State, s.state = .ready → ∃ t, transition m .run s = .next t ∧ t.state = .running) ∧
    (∀ s : State, s.state = .running → ∃ t, transition m .step s = .next t ∧
      ((fetch m s = .ok .hlt ∧ t.state = .halted) ∨
        (∃ r, fetch m s = .error r ∧ t.state = .faulted (r.record s.pc)) ∨
        (∃ i, fetch m s = .ok i ∧ i ≠ .hlt ∧ (t.state = .running ∨
          ∃ a : Byte, 8 ≤ a.toNat ∧ t.state = .faulted ((Raise.outOfBoundsRegister a).record s.pc))))) ∧
    (∀ (s t : State) (e : Event), transition m e s = .next t → t.state ≠ s.state →
      (∃ image spInit, e = .reset image spInit ∧ t.state = .ready) ∨
      (e = .run ∧ s.state = .ready ∧ t.state = .running) ∨
      (e = .step ∧ s.state = .running ∧ (t.state = .halted ∨ ∃ f, t.state = .faulted f)))

/-! ### The invariant -/

/-- Every step keeps the invariant, from every state that meets it and under every opcode map: memory stays canonical, pc
stays in 0..256, and a fault record stays coherent, so that the only out-of-range address ever recorded is 256. That a
raise ends in Faulted with this record, and pc as a natural number, are the spec's own choice (D7, D9, D10;
notes/assumptions/6.md, 8.md, 9.md). -/
def Obligations.StepKeepsInvariant : Prop :=
  (∀ s t : State, s.Inv defaultOpcodes → step s = .next t → t.Inv defaultOpcodes) ∧
  (∀ (m : OpcodeMap) (s t : State), s.Inv m → stepWith m s = .next t → t.Inv m)

/-- The invariant holds after reset: at `State.reset`, and at the reset state of any image and SP_INIT; `State.reset` is
that of the empty image and the default SP_INIT (notes/assumptions/2.md to 4.md). -/
def Obligations.ResetMeetsInvariant : Prop :=
  State.reset.Inv defaultOpcodes ∧ State.reset = State.resetWith [] Config.spInit ∧
  ∀ (m : OpcodeMap) (image : List Byte) (spInit : Byte), (State.resetWith image spInit).Inv m

/-- The reset state (spec/10_state.md, the whole state): memory is the image, R0 to R6 and pc are 0, EQ is false, R7 is
SP_INIT, the run state is Ready and the output empty. The zeros and the false are the spec's own choice (D5;
notes/assumptions/3.md). -/
def Obligations.ResetStateValues : Prop :=
  ∀ (image : List Byte) (spInit : Byte), image.length = 256 →
    (∀ k v, image[k]? = some v → (State.resetWith image spInit).mem.get k = v) ∧
    (∀ r : Fin 8, (State.resetWith image spInit).x[r] = if r = 7 then spInit else 0) ∧
    (State.resetWith image spInit).pc = 0 ∧ (State.resetWith image spInit).equal = false ∧
    (State.resetWith image spInit).state = .ready ∧ (State.resetWith image spInit).out = []

/-! ### Runs, isolation, the stack -/

/-- A run from a Running state has exactly one of three ends: it halts, it faults or it hangs (spec/40_execution_loop.md,
the end of a run). Faulted as an end is the spec's own choice (D9), as is a hang as an infinite run (D19;
notes/assumptions/8.md, 20.md). -/
def Obligations.RunHasExactlyOneEnd : Prop :=
  ∀ (m : OpcodeMap) (s : State), s.state = .running →
    (Halts m s ∧ ¬ Faults m s ∧ ¬ Hangs m s) ∨ (¬ Halts m s ∧ Faults m s ∧ ¬ Hangs m s) ∨
      (¬ Halts m s ∧ ¬ Faults m s ∧ Hangs m s)

/-- The output cannot be observed by the program: with any other bytes already in `out`, a step does the same and appends
the same bytes. -/
def Obligations.OutputIsWriteOnly : Prop :=
  ∀ (m : OpcodeMap) (s t : State), stepWith m s = .next t →
    ∃ added, t.out = s.out ++ added ∧
      ∀ earlier, stepWith m { s with out := earlier } = .next { t with out := earlier ++ added }

/-- PUSH of one register, then POP into another, moves the pushed byte and restores SP (spec/95_test_vectors.md E3); POP
into R7 leaves the byte plus 1. What PUSH R7 and POP R7 give, and the wrap of SP, are the spec's own choice (D4, D15;
notes/assumptions/10.md, 11.md). -/
def Obligations.PushThenPop : Prop :=
  ∀ (s : State) (r q : Fin 8), s.mem.wf = true →
    ∃ t u, exec (.push (regByte r)) s = .next t ∧ exec (.pop (regByte q)) t = .next u ∧
      u.pc = s.pc + 4 ∧
      (q ≠ 7 → u.x[q] = (if r = 7 then s.x[7] - 1 else s.x[r]) ∧ ∀ p : Fin 8, p ≠ q → u.x[p] = s.x[p]) ∧
      (q = 7 → u.x[7] = (if r = 7 then s.x[7] - 1 else s.x[r]) + 1 ∧ ∀ p : Fin 8, p ≠ 7 → u.x[p] = s.x[p])

/-- Fetch is coherent with PUSH (spec/20_memory.md, ordering; an inference the spec marks as derived): the very next fetch
from the cell PUSH wrote takes the pushed byte as its opcode. The cell is the one at the decremented SP, whose wrap from 0
to 255 is the spec's own choice (D4; notes/assumptions/10.md), and the byte is the operand register's after the decrement,
so that PUSH R7 stores the decremented SP, which is the spec's own choice too (D15; notes/assumptions/11.md). -/
def Obligations.PushedByteIsFetched : Prop :=
  ∀ (m : OpcodeMap) (s t : State) (r : Fin 8), s.mem.wf = true → exec (.push (regByte r)) s = .next t →
    (m.lookup (s.decSp.readReg r) = none →
      fetch m { t with pc := s.decSp.spAddr } = .error (.unknownInstruction (s.decSp.readReg r))) ∧
    (∀ i, fetch m { t with pc := s.decSp.spAddr } = .ok i → m.opcode i.mnemonic = s.decSp.readReg r) ∧
    (m.lookup (s.decSp.readReg r) = some .hlt → fetch m { t with pc := s.decSp.spAddr } = .ok .hlt)
end

