-- ==== Sys2Proof/Laws/Decode.lean ====
section
/-! SUPPORT. What the Instruction Table and the decoder can answer. -/

namespace Sys2Proof

/-- A byte the table names is the opcode of that mnemonic. -/
theorem OpcodeMap.opcode_of_lookup {m : OpcodeMap} {op : Byte} {k : Mnemonic} (h : m.lookup op = some k) :
    op = m.opcode k := by
  unfold OpcodeMap.lookup at h
  split_ifs at h with h1 h2 h3 h4 h5 h6 h7 h8 h9 h10 <;> cases h <;> simp_all [OpcodeBytes.opcode]

/-- The check of R66 accepts a map's bytes, and gives that map. -/
@[simp] theorem OpcodeMap.ofBytes?_toOpcodeBytes (m : OpcodeMap) : OpcodeMap.ofBytes? m.toOpcodeBytes = some m := by
  simp [OpcodeMap.ofBytes?, m.valid]

/-- The check of R66 refuses ten bytes exactly when one of them repeats. -/
theorem OpcodeMap.ofBytes?_eq_none (b : OpcodeBytes) : OpcodeMap.ofBytes? b = none ↔ ¬ b.bytes.Nodup := by
  unfold OpcodeMap.ofBytes? OpcodeBytes.distinct
  split
  · next h => exact iff_of_false (by simp) (not_not.mpr (of_decide_eq_true h))
  · next h => exact iff_of_true rfl fun hn => h (decide_eq_true hn)

/-- The ten opcode bytes of a map are distinct. -/
theorem OpcodeMap.bytes_nodup (m : OpcodeMap) : m.bytes.Nodup := by
  simpa [OpcodeBytes.distinct] using m.valid

/-- What reading one operand can answer. -/
theorem readOne_ok {ε : Type} {read : Nat → Except ε Byte} {mk : Byte → Instr} {i : Instr}
    (h : readOne read mk = .ok i) : ∃ a, read 1 = .ok a ∧ i = mk a := by
  unfold readOne at h
  split at h
  · cases h
  · next a ha => exact ⟨a, ha, by cases h; rfl⟩

/-- What reading two operands can answer. -/
theorem readTwo_ok {ε : Type} {read : Nat → Except ε Byte} {mk : Byte → Byte → Instr} {i : Instr}
    (h : readTwo read mk = .ok i) : ∃ a b, read 1 = .ok a ∧ read 2 = .ok b ∧ i = mk a b := by
  unfold readTwo at h
  split at h
  · cases h
  · next a ha =>
    split at h
    · cases h
    · next b hb => exact ⟨a, b, ha, hb, by cases h; rfl⟩

/-- What the decoder can answer: an opcode read at offset 0 that the table names, then its operands. -/
theorem decodeFrom_ok {ε : Type} {m : OpcodeMap} {unknown : Byte → ε} {read : Nat → Except ε Byte} {i : Instr}
    (h : decodeFrom m unknown read = .ok i) :
    ∃ op k, read 0 = .ok op ∧ m.lookup op = some k ∧ readOperands read k = .ok i := by
  unfold decodeFrom at h
  split at h
  · cases h
  · next op hop =>
    split at h
    · cases h
    · next k hk => exact ⟨op, k, hop, hk, h⟩

end Sys2Proof
end

