-- ==== Sys2Proof/Laws/Memory.lean ====
section
/-! SUPPORT. Memory: every operation keeps the canonical form, a read after a write, and equal reads make equal memories. -/

namespace Sys2Proof.Machine

theorem Memory.sortedFrom_cons {lo a : Nat} {v : Byte} {rest : Memory} :
    Memory.sortedFrom lo ((a, v) :: rest) = true ↔
      lo ≤ a ∧ a < 256 ∧ v ≠ 0 ∧ Memory.sortedFrom (a + 1) rest = true := by
  simp [Memory.sortedFrom, and_assoc]

theorem Memory.sortedFrom_mono {lo lo' : Nat} (h : lo' ≤ lo) {mem : Memory} (hs : Memory.sortedFrom lo mem = true) :
    Memory.sortedFrom lo' mem = true := by
  cases mem with
  | nil => rfl
  | cons c rest =>
    obtain ⟨h1, h2⟩ := Memory.sortedFrom_cons.mp hs
    exact Memory.sortedFrom_cons.mpr ⟨h.trans h1, h2⟩

/-- Below the first possible address, and from 256 on, a canonical memory reads as 0. -/
theorem Memory.get_of_sortedFrom {lo : Nat} {mem : Memory} (hs : Memory.sortedFrom lo mem = true) {a : Nat}
    (ha : a < lo ∨ 256 ≤ a) : mem.get a = 0 := by
  induction mem generalizing lo with
  | nil => rfl
  | cons c rest ih =>
    obtain ⟨h1, h2, -, h4⟩ := Memory.sortedFrom_cons.mp hs
    have hne : a ≠ c.1 := by omega
    simpa [Memory.get, hne] using ih h4 (by omega)

theorem Memory.sortedFrom_cell {lo a : Nat} {v : Byte} {rest : Memory} (hlo : lo ≤ a) (ha : a < 256)
    (hs : Memory.sortedFrom (a + 1) rest = true) : Memory.sortedFrom lo (Memory.cell a v rest) = true := by
  unfold Memory.cell
  split
  · exact Memory.sortedFrom_mono (by omega) hs
  · next hv => exact Memory.sortedFrom_cons.mpr ⟨hlo, ha, hv, hs⟩

theorem Memory.sortedFrom_set {lo : Nat} {mem : Memory} {a : Nat} {v : Byte}
    (hs : Memory.sortedFrom lo mem = true) (hlo : lo ≤ a) (ha : a < 256) :
    Memory.sortedFrom lo (mem.set a v) = true := by
  induction mem generalizing lo with
  | nil => exact Memory.sortedFrom_cell hlo ha rfl
  | cons c rest ih =>
    obtain ⟨h1, h2, h3, h4⟩ := Memory.sortedFrom_cons.mp hs
    unfold Memory.set
    split
    · exact Memory.sortedFrom_cell hlo ha (Memory.sortedFrom_cons.mpr ⟨by omega, h2, h3, h4⟩)
    · split
      · next h => exact Memory.sortedFrom_cell hlo ha (h ▸ h4)
      · exact Memory.sortedFrom_cons.mpr ⟨h1, h2, h3, ih h4 (by omega)⟩

/-- A write keeps the canonical form. -/
theorem Memory.wf_set {mem : Memory} (hm : mem.wf = true) {a : Nat} (ha : a < 256) (v : Byte) :
    (mem.set a v).wf = true := Memory.sortedFrom_set hm (Nat.zero_le a) ha

theorem Memory.wf_nil : Memory.wf [] = true := rfl

/-- Placing bytes keeps the canonical form. -/
theorem Memory.wf_place {mem : Memory} (hm : mem.wf = true) (a : Nat) (bytes : List Byte) :
    (mem.place a bytes).wf = true := by
  induction bytes generalizing mem a with
  | nil => exact hm
  | cons v rest ih =>
    unfold Memory.place
    split
    · next h => exact ih (Memory.wf_set hm h v) _
    · exact ih hm _

/-- An image gives a canonical memory. -/
theorem Memory.wf_ofImage (image : List Byte) : (Memory.ofImage image).wf = true :=
  Memory.wf_place Memory.wf_nil 0 image

theorem Memory.get_cell {a b : Nat} {v : Byte} {rest : Memory} (h : a = b → Memory.get rest a = 0 ∨ v ≠ 0) :
    Memory.get (Memory.cell b v rest) a = if a = b then v else Memory.get rest a := by
  unfold Memory.cell
  split
  · next hv =>
    split
    · next e => rcases h e with h0 | h0
                · rw [h0, hv]
                · exact absurd hv h0
    · rfl
  · rfl

/-- What a read gives after a write, in a memory sorted from `lo`. -/
theorem Memory.get_set_sortedFrom {lo : Nat} {mem : Memory} (hs : Memory.sortedFrom lo mem = true) (a b : Nat) (v : Byte) :
    Memory.get (mem.set a v) b = if b = a then v else Memory.get mem b := by
  induction mem generalizing lo with
  | nil => exact Memory.get_cell fun _ => .inl rfl
  | cons c rest ih =>
    obtain ⟨h1, h2, h3, h4⟩ := Memory.sortedFrom_cons.mp hs
    unfold Memory.set
    split
    · next hlt =>
      refine Memory.get_cell fun e => .inl ?_
      exact Memory.get_of_sortedFrom (lo := c.1) (Memory.sortedFrom_cons.mpr ⟨le_rfl, h2, h3, h4⟩) (.inl (by omega))
    · split
      · next he =>
        rw [Memory.get_cell fun e => .inl (Memory.get_of_sortedFrom h4 (.inl (by omega)))]
        simp only [Memory.get, he]
        split <;> rfl
      · next hne =>
        simp only [Memory.get, ih h4]
        split
        · next e => rw [if_neg (by omega)]
        · rfl

/-- A read after a write to the same cell gives the byte written. -/
theorem Memory.get_set_same {mem : Memory} (hm : mem.wf = true) (a : Nat) (v : Byte) : (mem.set a v).get a = v := by
  simpa using Memory.get_set_sortedFrom hm a a v

/-- A write leaves every other cell alone. -/
theorem Memory.get_set_other {mem : Memory} (hm : mem.wf = true) {a b : Nat} (h : b ≠ a) (v : Byte) :
    (mem.set a v).get b = mem.get b := by
  simpa [h] using Memory.get_set_sortedFrom hm a b v

/-- Two lists sorted from the same address that read alike are the same list. -/
theorem Memory.ext_sortedFrom {lo : Nat} {m₁ m₂ : Memory} (h₁ : Memory.sortedFrom lo m₁ = true)
    (h₂ : Memory.sortedFrom lo m₂ = true) (h : ∀ a, m₁.get a = m₂.get a) : m₁ = m₂ := by
  induction m₁ generalizing lo m₂ with
  | nil =>
    cases m₂ with
    | nil => rfl
    | cons c rest =>
      obtain ⟨-, -, h3, -⟩ := Memory.sortedFrom_cons.mp h₂
      exact absurd (by simpa [Memory.get] using (h c.1).symm) h3
  | cons c r₁ ih =>
    obtain ⟨-, b2, b3, b4⟩ := Memory.sortedFrom_cons.mp h₁
    cases m₂ with
    | nil => exact absurd (by simpa [Memory.get] using h c.1) b3
    | cons d r₂ =>
      obtain ⟨-, d2, d3, d4⟩ := Memory.sortedFrom_cons.mp h₂
      have hcd : c.1 = d.1 := by
        rcases Nat.lt_trichotomy c.1 d.1 with hlt | heq | hgt
        · have hz : Memory.get (d :: r₂) c.1 = 0 :=
            Memory.get_of_sortedFrom (lo := d.1) (Memory.sortedFrom_cons.mpr ⟨le_rfl, d2, d3, d4⟩) (.inl hlt)
          exact absurd (by rw [← hz, ← h c.1]; simp [Memory.get]) b3
        · exact heq
        · have hz : Memory.get (c :: r₁) d.1 = 0 :=
            Memory.get_of_sortedFrom (lo := c.1) (Memory.sortedFrom_cons.mpr ⟨le_rfl, b2, b3, b4⟩) (.inl hgt)
          exact absurd (by rw [← hz, h d.1]; simp [Memory.get]) d3
      obtain ⟨ca, cv⟩ := c
      obtain ⟨da, dv⟩ := d
      have hcd' : ca = da := hcd
      subst hcd'
      have hv : cv = dv := by simpa [Memory.get] using h ca
      subst hv
      congr 1
      refine ih b4 d4 fun a => ?_
      by_cases ha : a = ca
      · rw [Memory.get_of_sortedFrom b4 (.inl (by omega)), Memory.get_of_sortedFrom d4 (.inl (by omega))]
      · simpa [Memory.get, ha] using h a

/-- Equal memories are equal data: canonical memories that read alike are the same list. -/
theorem Memory.ext_of_wf {m₁ m₂ : Memory} (h₁ : m₁.wf = true) (h₂ : m₂.wf = true) (h : ∀ a, m₁.get a = m₂.get a) :
    m₁ = m₂ := Memory.ext_sortedFrom h₁ h₂ h

theorem memRead_of_lt {mem : Memory} {a : Nat} (h : a < 256) : memRead mem a = .ok (mem.get a) := by
  simp [memRead, h]

theorem memRead_of_ge {mem : Memory} {a : Nat} (h : 256 ≤ a) : memRead mem a = .error (.outOfBoundsAddress a) := by
  simp [memRead, Nat.not_lt.mpr h]

theorem memWrite_of_lt {mem : Memory} {a : Nat} (h : a < 256) (v : Byte) : memWrite mem a v = .ok (mem.set a v) := by
  simp [memWrite, h]

theorem memWrite_of_ge {mem : Memory} {a : Nat} (h : 256 ≤ a) (v : Byte) :
    memWrite mem a v = .error (.outOfBoundsAddress a) := by
  simp [memWrite, Nat.not_lt.mpr h]

end Sys2Proof.Machine
end

