-- ==== Sys2Proof/Laws/State.lean ====
section
/-! SUPPORT. What each update of a state does to each field: one lemma per field per update, true by unfolding once. -/

namespace Sys2Proof.Machine

/-! ### `State.setPc` -/

@[simp] theorem State.setPc_mem (s : State) (n : Nat) : (s.setPc n).mem = s.mem := rfl
@[simp] theorem State.setPc_x (s : State) (n : Nat) : (s.setPc n).x = s.x := rfl
@[simp] theorem State.setPc_pc (s : State) (n : Nat) : (s.setPc n).pc = n := rfl
@[simp] theorem State.setPc_equal (s : State) (n : Nat) : (s.setPc n).equal = s.equal := rfl
@[simp] theorem State.setPc_state (s : State) (n : Nat) : (s.setPc n).state = s.state := rfl
@[simp] theorem State.setPc_out (s : State) (n : Nat) : (s.setPc n).out = s.out := rfl

/-! ### `State.advance` -/

@[simp] theorem State.advance_mem (s : State) (n : Nat) : (s.advance n).mem = s.mem := rfl
@[simp] theorem State.advance_x (s : State) (n : Nat) : (s.advance n).x = s.x := rfl
@[simp] theorem State.advance_pc (s : State) (n : Nat) : (s.advance n).pc = s.pc + n := rfl
@[simp] theorem State.advance_equal (s : State) (n : Nat) : (s.advance n).equal = s.equal := rfl
@[simp] theorem State.advance_state (s : State) (n : Nat) : (s.advance n).state = s.state := rfl
@[simp] theorem State.advance_out (s : State) (n : Nat) : (s.advance n).out = s.out := rfl

/-! ### `State.emit` -/

@[simp] theorem State.emit_mem (s : State) (v : Byte) : (s.emit v).mem = s.mem := rfl
@[simp] theorem State.emit_x (s : State) (v : Byte) : (s.emit v).x = s.x := rfl
@[simp] theorem State.emit_pc (s : State) (v : Byte) : (s.emit v).pc = s.pc := rfl
@[simp] theorem State.emit_equal (s : State) (v : Byte) : (s.emit v).equal = s.equal := rfl
@[simp] theorem State.emit_state (s : State) (v : Byte) : (s.emit v).state = s.state := rfl
@[simp] theorem State.emit_out (s : State) (v : Byte) : (s.emit v).out = s.out ++ [v] := rfl

/-! ### `State.setState` -/

@[simp] theorem State.setState_mem (s : State) (r : RunState) : (s.setState r).mem = s.mem := rfl
@[simp] theorem State.setState_x (s : State) (r : RunState) : (s.setState r).x = s.x := rfl
@[simp] theorem State.setState_pc (s : State) (r : RunState) : (s.setState r).pc = s.pc := rfl
@[simp] theorem State.setState_equal (s : State) (r : RunState) : (s.setState r).equal = s.equal := rfl
@[simp] theorem State.setState_state (s : State) (r : RunState) : (s.setState r).state = r := rfl
@[simp] theorem State.setState_out (s : State) (r : RunState) : (s.setState r).out = s.out := rfl

/-! ### `State.setMem` -/

@[simp] theorem State.setMem_mem (s : State) (mem : Memory) : (s.setMem mem).mem = mem := rfl
@[simp] theorem State.setMem_x (s : State) (mem : Memory) : (s.setMem mem).x = s.x := rfl
@[simp] theorem State.setMem_pc (s : State) (mem : Memory) : (s.setMem mem).pc = s.pc := rfl
@[simp] theorem State.setMem_equal (s : State) (mem : Memory) : (s.setMem mem).equal = s.equal := rfl
@[simp] theorem State.setMem_state (s : State) (mem : Memory) : (s.setMem mem).state = s.state := rfl
@[simp] theorem State.setMem_out (s : State) (mem : Memory) : (s.setMem mem).out = s.out := rfl

/-! ### `State.setEqual` -/

@[simp] theorem State.setEqual_mem (s : State) (b : Bool) : (s.setEqual b).mem = s.mem := rfl
@[simp] theorem State.setEqual_x (s : State) (b : Bool) : (s.setEqual b).x = s.x := rfl
@[simp] theorem State.setEqual_pc (s : State) (b : Bool) : (s.setEqual b).pc = s.pc := rfl
@[simp] theorem State.setEqual_equal (s : State) (b : Bool) : (s.setEqual b).equal = b := rfl
@[simp] theorem State.setEqual_state (s : State) (b : Bool) : (s.setEqual b).state = s.state := rfl
@[simp] theorem State.setEqual_out (s : State) (b : Bool) : (s.setEqual b).out = s.out := rfl

/-! ### `State.writeReg` -/

@[simp] theorem State.writeReg_mem (s : State) (i : Fin 8) (v : Int) : (s.writeReg i v).mem = s.mem := rfl
@[simp] theorem State.writeReg_x (s : State) (i : Fin 8) (v : Int) : (s.writeReg i v).x = s.x.set i (wrap8 v) i.isLt := rfl
@[simp] theorem State.writeReg_pc (s : State) (i : Fin 8) (v : Int) : (s.writeReg i v).pc = s.pc := rfl
@[simp] theorem State.writeReg_equal (s : State) (i : Fin 8) (v : Int) : (s.writeReg i v).equal = s.equal := rfl
@[simp] theorem State.writeReg_state (s : State) (i : Fin 8) (v : Int) : (s.writeReg i v).state = s.state := rfl
@[simp] theorem State.writeReg_out (s : State) (i : Fin 8) (v : Int) : (s.writeReg i v).out = s.out := rfl

/-! ### Registers -/

@[simp] theorem State.readReg_setPc (s : State) (n : Nat) (i : Fin 8) : (s.setPc n).readReg i = s.readReg i := rfl
@[simp] theorem State.readReg_advance (s : State) (n : Nat) (i : Fin 8) : (s.advance n).readReg i = s.readReg i := rfl
@[simp] theorem State.readReg_emit (s : State) (v : Byte) (i : Fin 8) : (s.emit v).readReg i = s.readReg i := rfl
@[simp] theorem State.readReg_setState (s : State) (r : RunState) (i : Fin 8) : (s.setState r).readReg i = s.readReg i := rfl
@[simp] theorem State.readReg_setMem (s : State) (mem : Memory) (i : Fin 8) : (s.setMem mem).readReg i = s.readReg i := rfl
@[simp] theorem State.readReg_setEqual (s : State) (b : Bool) (i : Fin 8) : (s.setEqual b).readReg i = s.readReg i := rfl

/-- A register read after a write to it gives the value written, narrowed to a byte. -/
@[simp] theorem State.readReg_writeReg_same (s : State) (i : Fin 8) (v : Int) :
    (s.writeReg i v).readReg i = wrap8 v := by
  simp [State.readReg]

/-- A write to a register leaves every other register alone. -/
theorem State.readReg_writeReg_other (s : State) (i j : Fin 8) (v : Int) (h : j ≠ i) :
    (s.writeReg i v).readReg j = s.readReg j := by
  have hv : i.val ≠ j.val := fun e => h (Fin.ext e.symm)
  simpa [State.readReg] using Vector.getElem_set_ne i.isLt j.isLt hv

/-! ### Narrowing -/

/-- A byte written to a register is stored unchanged. -/
@[simp] theorem wrap8_toNat (v : Byte) : wrap8 (v.toNat : Int) = v := by
  simp [wrap8]

/-- The exact product narrowed is the product modulo 256. -/
theorem wrap8_mul (p q : Byte) : wrap8 ((p.toNat : Int) * (q.toNat : Int)) = p * q := by
  have e : (p.toNat : Int) * (q.toNat : Int) = ((p.toNat * q.toNat : Nat) : Int) := by push_cast; rfl
  rw [e, wrap8, BitVec.ofInt_natCast, BitVec.ofNat_mul, BitVec.ofNat_toNat, BitVec.ofNat_toNat]
  simp

/-- Decrementing exactly and narrowing is the wrapping decrement. -/
theorem wrap8_dec (p : Byte) : wrap8 ((p.toNat : Int) - 1) = p - 1 := by
  apply BitVec.eq_of_toNat_eq
  have := p.isLt
  simp [wrap8, BitVec.toNat_sub]
  omega

/-- Incrementing exactly and narrowing is the wrapping increment. -/
theorem wrap8_inc (p : Byte) : wrap8 ((p.toNat : Int) + 1) = p + 1 := by
  apply BitVec.eq_of_toNat_eq
  have := p.isLt
  simp [wrap8, BitVec.toNat_add]
  omega

end Sys2Proof.Machine
end

