-- ==== Sys2Proof/Laws/Ops.lean ====
section
/-! SUPPORT. What each shared operation can do, once: cited in place of unfolding it. -/

namespace Sys2Proof.Machine

@[simp] theorem orRaise_ok {α : Type} (s : State) (v : α) (k : α → Result) : orRaise s (.ok v) k = k v := rfl

@[simp] theorem orRaise_error {α : Type} (s : State) (r : Raise) (k : α → Result) :
    orRaise s (.error r) k = raise s r := rfl

/-- All a checked operation can answer: the rest of the handler on the checked value, or the raise. -/
theorem orRaise_cases {α : Type} {s t : State} {c : Except Raise α} {k : α → Result} (h : orRaise s c k = .next t) :
    (∃ v, c = .ok v ∧ k v = .next t) ∨ ∃ r, c = .error r ∧ t = s.setState (.faulted (r.record s.pc)) := by
  cases c with
  | ok v => exact .inl ⟨v, rfl, h⟩
  | error r =>
    refine .inr ⟨r, rfl, ?_⟩
    simpa [raise] using h.symm

theorem regByte_toNat (i : Fin 8) : (regByte i).toNat = i.val := by
  have := i.isLt
  simp [regByte]
  omega

/-- A byte that names a register passes CheckReg. -/
@[simp] theorem checkReg_regByte (i : Fin 8) : checkReg (regByte i) = .ok i := by
  simp [checkReg, regByte_toNat]

/-- A byte 8..255 fails CheckReg with its own value. -/
theorem checkReg_of_ge {a : Byte} (h : 8 ≤ a.toNat) : checkReg a = .error (.outOfBoundsRegister a) := by
  simp [checkReg, Nat.not_lt.mpr h]

/-- All CheckReg can answer. -/
theorem checkReg_cases (a : Byte) :
    (∃ i : Fin 8, a = regByte i ∧ checkReg a = .ok i) ∨ (8 ≤ a.toNat ∧ checkReg a = .error (.outOfBoundsRegister a)) := by
  by_cases h : a.toNat < 8
  · refine .inl ⟨⟨a.toNat, h⟩, ?_, by simp [checkReg, h]⟩
    apply BitVec.eq_of_toNat_eq
    rw [regByte_toNat]
  · exact .inr ⟨by omega, checkReg_of_ge (by omega)⟩

@[simp] theorem withReg_regByte (s : State) (i : Fin 8) (k : Fin 8 → Result) : withReg s (regByte i) k = k i := by
  simp [withReg]

theorem withReg_of_ge (s : State) {a : Byte} (h : 8 ≤ a.toNat) (k : Fin 8 → Result) :
    withReg s a k = raise s (.outOfBoundsRegister a) := by
  simp [withReg, checkReg_of_ge h]

/-- All a handler with a register operand can answer. -/
theorem withReg_cases {s t : State} {a : Byte} {k : Fin 8 → Result} (h : withReg s a k = .next t) :
    (∃ i : Fin 8, a = regByte i ∧ k i = .next t) ∨
      (8 ≤ a.toNat ∧ t = s.setState (.faulted ((Raise.outOfBoundsRegister a).record s.pc))) := by
  rcases checkReg_cases a with ⟨i, ha, -⟩ | ⟨ha, -⟩
  · subst ha
    exact .inl ⟨i, rfl, by simpa using h⟩
  · rw [withReg_of_ge s ha] at h
    exact .inr ⟨ha, by simpa [raise] using h.symm⟩

/-! ### The stack pointer -/

@[simp] theorem State.decSp_mem (s : State) : s.decSp.mem = s.mem := rfl
@[simp] theorem State.decSp_pc (s : State) : s.decSp.pc = s.pc := rfl
@[simp] theorem State.decSp_equal (s : State) : s.decSp.equal = s.equal := rfl
@[simp] theorem State.decSp_state (s : State) : s.decSp.state = s.state := rfl
@[simp] theorem State.decSp_out (s : State) : s.decSp.out = s.out := rfl
@[simp] theorem State.incSp_mem (s : State) : s.incSp.mem = s.mem := rfl
@[simp] theorem State.incSp_pc (s : State) : s.incSp.pc = s.pc := rfl
@[simp] theorem State.incSp_equal (s : State) : s.incSp.equal = s.equal := rfl
@[simp] theorem State.incSp_state (s : State) : s.incSp.state = s.state := rfl
@[simp] theorem State.incSp_out (s : State) : s.incSp.out = s.out := rfl

/-- SP after the decrement of PUSH. -/
theorem State.readReg_decSp_sp (s : State) : s.decSp.readReg sp = s.readReg sp - 1 := by
  simp [State.decSp, wrap8_dec]

/-- SP after the increment of POP. -/
theorem State.readReg_incSp_sp (s : State) : s.incSp.readReg sp = s.readReg sp + 1 := by
  simp [State.incSp, wrap8_inc]

theorem State.readReg_decSp_other (s : State) {i : Fin 8} (h : i ≠ sp) : s.decSp.readReg i = s.readReg i :=
  State.readReg_writeReg_other _ _ _ _ h

theorem State.readReg_incSp_other (s : State) {i : Fin 8} (h : i ≠ sp) : s.incSp.readReg i = s.readReg i :=
  State.readReg_writeReg_other _ _ _ _ h

/-- The stack pointer, decremented or incremented, still addresses a cell. -/
theorem State.spAddr_lt (s : State) : s.spAddr < 256 := (s.readReg sp).isLt

/-- The stack access of PUSH never raises (spec/44_stack.md R140). -/
theorem execPush_regByte (i : Fin 8) (s : State) :
    execPush (regByte i) s = .next ((s.decSp.setMem (s.mem.set s.decSp.spAddr (s.decSp.readReg i))).advance 2) := by
  simp [execPush, memWrite_of_lt s.decSp.spAddr_lt]

/-- The stack access of POP never raises (spec/44_stack.md R140). -/
theorem execPop_regByte (i : Fin 8) (s : State) :
    execPop (regByte i) s = .next ((s.writeReg i (s.mem.get s.spAddr).toNat).incSp.advance 2) := by
  simp [execPop, memRead_of_lt s.spAddr_lt]

/-- What the ALU contract gives for MUL on two registers. -/
theorem alu_mul_regByte (i j : Fin 8) (s : State) :
    alu .mul (regByte i) (regByte j) s =
      .next ((s.writeReg i ((s.readReg i).toNat * (s.readReg j).toNat)).advance 3) := by
  simp [alu, withRegs]

theorem jumpTo_regByte (i : Fin 8) (s : State) : jumpTo (regByte i) s = .next (s.setPc (s.readReg i).toNat) := by
  simp [jumpTo]

end Sys2Proof.Machine
end

