-- ==== Sys2Proof/Laws/Exec.lean ====
section
/-! SUPPORT. Everything an instruction can do, once: each next state of `exec` is one of these. -/

namespace Sys2Proof.Machine

/-- The effects of an instruction on a state: its own, on register operands that name registers, or the fatal condition of
one that does not. -/
inductive Effect (s : State) : Instr → State → Prop where
  | ldi (r : Fin 8) (b : Byte) : Effect s (.ldi (regByte r) b) ((s.writeReg r b.toNat).advance 3)
  | prn (r : Fin 8) : Effect s (.prn (regByte r)) ((s.emit (s.readReg r)).advance 2)
  | hlt : Effect s .hlt ((s.setState .halted).advance 1)
  | mul (r q : Fin 8) : Effect s (.mul (regByte r) (regByte q))
      ((s.writeReg r ((s.readReg r).toNat * (s.readReg q).toNat)).advance 3)
  | push (r : Fin 8) : Effect s (.push (regByte r))
      ((s.decSp.setMem (s.mem.set s.decSp.spAddr (s.decSp.readReg r))).advance 2)
  | pop (r : Fin 8) : Effect s (.pop (regByte r)) ((s.writeReg r (s.mem.get s.spAddr).toNat).incSp.advance 2)
  | cmp (r q : Fin 8) : Effect s (.cmp (regByte r) (regByte q))
      ((s.setEqual (equalFlag (s.readReg r) (s.readReg q))).advance 3)
  | jmp (r : Fin 8) : Effect s (.jmp (regByte r)) (s.setPc (s.readReg r).toNat)
  | jeqTaken (r : Fin 8) (h : s.equal = true) : Effect s (.jeq (regByte r)) (s.setPc (s.readReg r).toNat)
  | jeqNot (a : Byte) (h : s.equal = false) : Effect s (.jeq a) (s.advance 2)
  | jneTaken (r : Fin 8) (h : s.equal = false) : Effect s (.jne (regByte r)) (s.setPc (s.readReg r).toNat)
  | jneNot (a : Byte) (h : s.equal = true) : Effect s (.jne a) (s.advance 2)
  | badRegister (i : Instr) (a : Byte) (h : 8 ≤ a.toNat) (hi : i ≠ .hlt) :
      Effect s i (s.setState (.faulted ((Raise.outOfBoundsRegister a).record s.pc)))

theorem Effect.of_withReg {s t : State} {i : Instr} {a : Byte} {k : Fin 8 → Result} (h : withReg s a k = .next t)
    (hi : i ≠ .hlt) (hk : ∀ r, a = regByte r → k r = .next t → Effect s i t) : Effect s i t := by
  rcases withReg_cases h with ⟨r, ha, hr⟩ | ⟨ha, ht⟩
  · exact hk r ha hr
  · exact ht ▸ .badRegister i a ha hi

theorem Effect.of_withRegs {s t : State} {i : Instr} {a b : Byte} {k : Fin 8 → Fin 8 → Result}
    (h : withRegs s a b k = .next t) (hi : i ≠ .hlt)
    (hk : ∀ r q, a = regByte r → b = regByte q → k r q = .next t → Effect s i t) : Effect s i t :=
  Effect.of_withReg h hi fun r hr h' => Effect.of_withReg h' hi fun q hq h'' => hk r q hr hq h''

/-- Each next state of an instruction is one of its effects. -/
theorem exec_effect {i : Instr} {s t : State} (h : exec i s = .next t) : Effect s i t := by
  cases i with
  | ldi a b =>
    refine Effect.of_withReg h (by simp) fun r hr hk => ?_
    subst hr; cases hk; exact .ldi r b
  | prn a =>
    refine Effect.of_withReg h (by simp) fun r hr hk => ?_
    subst hr; cases hk; exact .prn r
  | hlt => cases h; exact .hlt
  | mul a b =>
    refine Effect.of_withRegs h (by simp) fun r q hr hq hk => ?_
    subst hr; subst hq; cases hk; exact .mul r q
  | push a =>
    refine Effect.of_withReg h (by simp) fun r hr hk => ?_
    rw [memWrite_of_lt s.decSp.spAddr_lt] at hk
    subst hr; cases hk; exact .push r
  | pop a =>
    refine Effect.of_withReg h (by simp) fun r hr hk => ?_
    rw [memRead_of_lt s.spAddr_lt] at hk
    subst hr; cases hk; exact .pop r
  | cmp a b =>
    refine Effect.of_withRegs h (by simp) fun r q hr hq hk => ?_
    subst hr; subst hq; cases hk; exact .cmp r q
  | jmp a =>
    refine Effect.of_withReg h (by simp) fun r hr hk => ?_
    subst hr; cases hk; exact .jmp r
  | jeq a =>
    simp only [exec, execJeq] at h
    split at h
    · next he =>
      refine Effect.of_withReg h (by simp) fun r hr hk => ?_
      subst hr; cases hk; exact .jeqTaken r he
    · next he => cases h; exact .jeqNot a (by simpa using he)
  | jne a =>
    simp only [exec, execJne] at h
    split at h
    · next he => cases h; exact .jneNot a he
    · next he =>
      refine Effect.of_withReg h (by simp) fun r hr hk => ?_
      subst hr; cases hk; exact .jneTaken r (by simpa using he)

end Sys2Proof.Machine
end

