-- ==== Sys2Proof/Laws/PerInstr.lean ====
section
/-! SUPPORT. Statements made per instruction (LAWS.json). EncodeWidth: an instruction's encoding begins with its
mnemonic's opcode byte and has exactly its width, under every opcode map (spec/30_encoding.md R61, R66). -/

namespace Sys2Proof.Laws.EncodeWidth

def Statement (i : Instr) : Prop :=
  ∀ m : OpcodeMap, (encode m i).length = i.width ∧ (encode m i).head? = some (m.opcode i.mnemonic)

theorem ldi (a b : Byte) : Statement (.ldi a b) := fun _ => ⟨rfl, rfl⟩
theorem prn (a : Byte) : Statement (.prn a) := fun _ => ⟨rfl, rfl⟩
theorem hlt : Statement .hlt := fun _ => ⟨rfl, rfl⟩
theorem mul (a b : Byte) : Statement (.mul a b) := fun _ => ⟨rfl, rfl⟩
theorem push (a : Byte) : Statement (.push a) := fun _ => ⟨rfl, rfl⟩
theorem pop (a : Byte) : Statement (.pop a) := fun _ => ⟨rfl, rfl⟩
theorem cmp (a b : Byte) : Statement (.cmp a b) := fun _ => ⟨rfl, rfl⟩
theorem jmp (a : Byte) : Statement (.jmp a) := fun _ => ⟨rfl, rfl⟩
theorem jeq (a : Byte) : Statement (.jeq a) := fun _ => ⟨rfl, rfl⟩
theorem jne (a : Byte) : Statement (.jne a) := fun _ => ⟨rfl, rfl⟩

end Sys2Proof.Laws.EncodeWidth
end

