-- ==== Sys2Proof/Laws/Step.lean ====
section
/-! SUPPORT. Everything a fetch and a step can do, once. -/

namespace Sys2Proof.Machine

theorem memRead_ok {mem : Memory} {a : Nat} {v : Byte} (h : memRead mem a = .ok v) : a < 256 ∧ v = mem.get a := by
  unfold memRead at h
  split at h
  · next ha => exact ⟨ha, by cases h; rfl⟩
  · cases h

theorem memRead_error {mem : Memory} {a : Nat} {r : Raise} (h : memRead mem a = .error r) :
    256 ≤ a ∧ r = .outOfBoundsAddress a := by
  unfold memRead at h
  split at h
  · cases h
  · next ha => exact ⟨by omega, by cases h; rfl⟩

/-- A fetched instruction lies in memory whole. -/
theorem fetch_ok_width {m : OpcodeMap} {s : State} {i : Instr} (h : fetch m s = .ok i) : s.pc + i.width ≤ 256 := by
  obtain ⟨op, k, h0, -, hr⟩ := decodeFrom_ok h
  have b0 := (memRead_ok h0).1
  cases k <;> simp only [readOperands] at hr
  case hlt =>
    cases hr
    simp [Instr.width, Instr.mnemonic, Mnemonic.format, Format.width]
    omega
  case ldi | mul | cmp =>
    obtain ⟨a, b, -, hb, rfl⟩ := readTwo_ok hr
    have b2 := (memRead_ok hb).1
    simp [Instr.width, Instr.mnemonic, Mnemonic.format, Format.width]
    omega
  all_goals
    obtain ⟨a, ha, rfl⟩ := readOne_ok hr
    have b1 := (memRead_ok ha).1
    simp [Instr.width, Instr.mnemonic, Mnemonic.format, Format.width]
    omega

/-- Reading the operands fails where the first of them that cannot be read is. -/
theorem readOperands_error {ε : Type} {read : Nat → Except ε Byte} {k : Mnemonic} {e : ε}
    (h : readOperands read k = .error e) : read 1 = .error e ∨ ((∃ a, read 1 = .ok a) ∧ read 2 = .error e) := by
  cases k <;> simp only [readOperands, readOne, readTwo] at h <;> repeat' split at h
  all_goals simp_all

/-- All a failed fetch can raise: the first address past memory among pc, pc+1 and pc+2, or an opcode with no handler. -/
theorem fetch_error {m : OpcodeMap} {s : State} {r : Raise} (h : fetch m s = .error r) :
    (∃ j, j ≤ 2 ∧ 256 ≤ s.pc + j ∧ (j = 0 ∨ s.pc + j = 256) ∧ r = .outOfBoundsAddress (s.pc + j)) ∨
      (s.pc < 256 ∧ m.lookup (s.mem.get s.pc) = none ∧ r = .unknownInstruction (s.mem.get s.pc)) := by
  unfold fetch decodeFrom at h
  split at h
  · next e he =>
    cases h
    obtain ⟨h1, h2⟩ := memRead_error he
    exact .inl ⟨0, by omega, h1, .inl rfl, h2⟩
  · next op hop =>
    obtain ⟨h0, rfl⟩ := memRead_ok hop
    split at h
    · next hk => cases h; exact .inr ⟨h0, hk, rfl⟩
    · rcases readOperands_error h with h1 | ⟨⟨a, h1⟩, h2⟩
      · obtain ⟨h3, h4⟩ := memRead_error h1
        exact .inl ⟨1, by omega, h3, .inr (by omega), h4⟩
      · obtain ⟨h3, h4⟩ := memRead_error h2
        have h5 := (memRead_ok h1).1
        exact .inl ⟨2, by omega, h3, .inr (by omega), h4⟩

theorem stepWith_running {m : OpcodeMap} {s : State} (h : s.state = .running) :
    stepWith m s = orRaise s (fetch m s) fun i => exec i s := by
  simp [stepWith, h]

/-- All a step can do: from Running, the effect of the fetched instruction, or the fatal condition of a failed fetch. -/
theorem stepWith_cases {m : OpcodeMap} {s t : State} (h : stepWith m s = .next t) :
    s.state = .running ∧ ((∃ i, fetch m s = .ok i ∧ Effect s i t) ∨
      ∃ r, fetch m s = .error r ∧ t = s.setState (.faulted (r.record s.pc))) := by
  have hr : s.state = .running := by
    unfold stepWith at h
    split at h <;> first | assumption | cases h
  rw [stepWith_running hr] at h
  rcases orRaise_cases h with ⟨i, hi, he⟩ | hf
  · exact ⟨hr, .inl ⟨i, hi, exec_effect he⟩⟩
  · exact ⟨hr, .inr hf⟩

end Sys2Proof.Machine
end

