-- ==== Sys2Proof/Tests/Slice0.lean ====
section
/-! SUPPORT. Tests: the checks of WellFormed, one written-out word per constructor, at most two single steps per
instruction (expected results from spec/95_test_vectors.md), and a witness for the hypotheses of each statement. -/

namespace Sys2Proof.Tests

open Sys2Proof.Machine

/-! ### Helpers -/

/-- A Running state with these bytes at `pc` and every other piece of state as at reset. -/
def atPc (pc : Nat) (bytes : List Byte) : State :=
  { State.reset with mem := Memory.place [] pc bytes, pc := pc, state := .running }

/-- The next state of an answer, if it is one. -/
def nextOf : Result → Option State
  | .next s => some s
  | .fault _ => none
  | .refused _ => none

/-- The register `i` and the pc of a next state. -/
def regAndPc (i : Fin 8) (r : Result) : Option (Byte × Nat) := (nextOf r).map fun s => (s.readReg i, s.pc)

/-- The run state and the pc of a next state. -/
def runAndPc (r : Result) : Option (RunState × Nat) := (nextOf r).map fun s => (s.state, s.pc)

/-! ### WellFormed: an ill-formed term for each check -/

theorem test_wf_ldi_refused : (Instr.ldi 8 0).wellFormed = false := by decide
theorem test_wf_ldi_any_immediate : (Instr.ldi 7 255).wellFormed = true := by decide
theorem test_wf_prn_refused : (Instr.prn 8).wellFormed = false := by decide
theorem test_wf_mul_first_refused : (Instr.mul 8 0).wellFormed = false := by decide
theorem test_wf_mul_second_refused : (Instr.mul 0 9).wellFormed = false := by decide
theorem test_wf_push_refused : (Instr.push 255).wellFormed = false := by decide
theorem test_wf_pop_refused : (Instr.pop 8).wellFormed = false := by decide
theorem test_wf_cmp_first_refused : (Instr.cmp 9 0).wellFormed = false := by decide
theorem test_wf_cmp_second_refused : (Instr.cmp 0 8).wellFormed = false := by decide
theorem test_wf_jmp_refused : (Instr.jmp 8).wellFormed = false := by decide
theorem test_wf_jeq_refused : (Instr.jeq 8).wellFormed = false := by decide
theorem test_wf_jne_refused : (Instr.jne 8).wellFormed = false := by decide
theorem test_wf_hlt : Instr.hlt.wellFormed = true := by decide
/-- R66: ten bytes with two equal opcodes (JEQ and JNE both 0x55) make no map; the default ten do. -/
theorem test_wf_map_refused :
    OpcodeMap.ofBytes? { defaultOpcodes.toOpcodeBytes with jne := 0x55 } = none := by decide
theorem test_wf_map_default : OpcodeMap.ofBytes? defaultOpcodes.toOpcodeBytes = some defaultOpcodes := by decide
/-- The canonical form refuses a zero cell, a wrong order, a repeat and an address past 255. -/
theorem test_wf_mem_zero_refused : Memory.wf [(3, 0)] = false := by decide
theorem test_wf_mem_order_refused : Memory.wf [(4, 1), (3, 1)] = false := by decide
theorem test_wf_mem_repeat_refused : Memory.wf [(4, 1), (4, 2)] = false := by decide
theorem test_wf_mem_bound_refused : Memory.wf [(256, 1)] = false := by decide

/-! ### Decoding: a word for each constructor, written out from R61 and R64 -/

theorem test_decode_ldi : decode defaultOpcodes [0b10000010, 0b00000000, 0b00101010] = .ok (.ldi 0 42, []) := by rfl
theorem test_decode_prn : decode defaultOpcodes [0b01000111, 0b00000111, 0x01] = .ok (.prn 7, [0x01]) := by rfl
theorem test_decode_hlt : decode defaultOpcodes [0b00000001] = .ok (.hlt, []) := by rfl
theorem test_decode_mul : decode defaultOpcodes [0b10100010, 0b00000000, 0b00000001] = .ok (.mul 0 1, []) := by rfl
theorem test_decode_push : decode defaultOpcodes [0b01000101, 0b00000010] = .ok (.push 2, []) := by rfl
theorem test_decode_pop : decode defaultOpcodes [0b01000110, 0b00000011] = .ok (.pop 3, []) := by rfl
theorem test_decode_cmp : decode defaultOpcodes [0b10100111, 0b00000010, 0b00000101] = .ok (.cmp 2 5, []) := by rfl
theorem test_decode_jmp : decode defaultOpcodes [0b01010100, 0b00000011] = .ok (.jmp 3, []) := by rfl
theorem test_decode_jeq : decode defaultOpcodes [0b01010101, 0b00000010] = .ok (.jeq 2, []) := by rfl
theorem test_decode_jne : decode defaultOpcodes [0b01010110, 0b11111111] = .ok (.jne 255, []) := by rfl
/-- R67, R68: 0x00, 0xFF and LS-8's ADD are refused by name. -/
theorem test_decode_zero : decode defaultOpcodes [0x00] = .error (.unknownOpcode 0x00) := by rfl
theorem test_decode_ff : decode defaultOpcodes [0xFF, 0x01] = .error (.unknownOpcode 0xFF) := by rfl
theorem test_decode_add : decode defaultOpcodes [0xA0, 0x00, 0x01] = .error (.unknownOpcode 0xA0) := by rfl
/-- R70: a missing operand byte is named by its offset. -/
theorem test_decode_short : decode defaultOpcodes [0x82, 0x00] = .error (.missingByte 2) := by rfl
theorem test_decode_empty : decode defaultOpcodes [] = .error (.missingByte 0) := by rfl
/-- The table's numbering: the second byte is bits 15..8, and bits from nbits on are 0. -/
theorem test_table_word : decodeTableWord 24 0x2A0082 = some (.ldi 0 42) := by decide
theorem test_table_word_short : decodeTableWord 8 0x2A0182 = some (.ldi 0 0) := by decide
theorem test_encode_cmp : encode defaultOpcodes (.cmp 2 5) = [0xA7, 0x02, 0x05] := by decide
theorem test_spell_mul : (Instr.mul 0 1).spell = some "MUL R0, R1" := by decide

/-! ### One step each (V-numbers of spec/95_test_vectors.md) -/

/-- V1. -/
theorem test_ldi : regAndPc 0 (step (atPc 0 [0x82, 0x00, 0x2A])) = some (42, 3) := by decide
/-- V6. -/
theorem test_ldi_top : runAndPc (step (atPc 254 [0x82, 0x00])) =
    some (.faulted ⟨.outOfBounds, 254, some (.address 256)⟩, 254) := by decide
/-- V9, with SP set. -/
theorem test_prn : (nextOf (step ((atPc 0 [0x47, 0x07]).writeReg 7 244))).map (fun s => (s.out, s.pc)) =
    some ([244], 2) := by decide
/-- V10. -/
theorem test_prn_bad : (nextOf (step (atPc 0 [0x47, 0x09]))).map (fun s => (s.out, s.state)) =
    some ([], .faulted ⟨.outOfBounds, 0, some (.register 9)⟩) := by decide
/-- V13. -/
theorem test_hlt_top : runAndPc (step (atPc 255 [0x01])) = some (.halted, 256) := by decide
/-- V17. -/
theorem test_mul_wraps :
    regAndPc 0 (step (((atPc 0 [0xA2, 0x00, 0x01]).writeReg 0 255).writeReg 1 255)) = some (1, 3) := by decide
/-- V21: the second index is checked; the first register stays. -/
theorem test_mul_bad : (nextOf (step ((atPc 0 [0xA2, 0x00, 0x09]).writeReg 0 3))).map (fun s => (s.readReg 0, s.state)) =
    some (3, .faulted ⟨.outOfBounds, 0, some (.register 9)⟩) := by decide
/-- V28: SP wraps from 0 to 255. -/
theorem test_push_wraps :
    (nextOf (step ((atPc 0 [0x45, 0x02]).writeReg 2 9))).map (fun s => (s.readReg 7, s.mem.get 255, s.pc)) =
      some (255, 9, 2) := by decide
/-- V30: PUSH R7 stores the decremented SP. -/
theorem test_push_sp : (nextOf (step ((atPc 0 [0x45, 0x07]).writeReg 7 16))).map (fun s => (s.readReg 7, s.mem.get 15)) =
    some (15, 15) := by decide
/-- V37: POP of its own opcode. -/
theorem test_pop_code : (nextOf (step (atPc 0 [0x46, 0x00]))).map (fun s => (s.readReg 0, s.readReg 7, s.pc)) =
    some (0x46, 1, 2) := by decide
/-- V34: POP R7 leaves the popped byte plus 1. -/
theorem test_pop_sp :
    regAndPc 7 (step (((atPc 0 [0x46, 0x07]).setMem (Memory.place [] 0 [0x46, 0x07] |>.set 128 64)).writeReg 7 128)) =
      some (65, 2) := by decide
/-- V25: EQ becomes false. -/
theorem test_cmp_unequal :
    (nextOf (step (((atPc 0 [0xA7, 0x00, 0x01]).writeReg 1 255).setEqual true))).map (fun s => (s.equal, s.pc)) =
      some (false, 3) := by decide
/-- V26. -/
theorem test_cmp_same : (nextOf (step ((atPc 0 [0xA7, 0x03, 0x03]).writeReg 3 77))).map (fun s => s.equal) =
    some true := by decide
/-- V38. -/
theorem test_jmp : runAndPc (step ((atPc 0 [0x54, 0x03]).writeReg 3 27)) = some (.running, 27) := by decide
/-- V43. -/
theorem test_jeq_taken : runAndPc (step (((atPc 15 [0x55, 0x02]).writeReg 2 19).setEqual true)) =
    some (.running, 19) := by decide
/-- V45: a bad index on a jump not taken. -/
theorem test_jeq_not_taken_bad : runAndPc (step (atPc 15 [0x55, 0x08])) = some (.running, 17) := by decide
/-- V49. -/
theorem test_jne_taken : runAndPc (step ((atPc 17 [0x56, 0x02]).writeReg 2 9)) = some (.running, 9) := by decide
/-- V52. -/
theorem test_jne_bad : runAndPc (step (atPc 17 [0x56, 0x08])) =
    some (.faulted ⟨.outOfBounds, 17, some (.register 8)⟩, 17) := by decide
/-- V54: LS-8's ADD is no instruction. -/
theorem test_unknown : runAndPc (step (atPc 0 [0xA0, 0x00, 0x01])) =
    some (.faulted ⟨.unknownInstruction, 0, some (.opcode 0xA0)⟩, 0) := by decide
/-- V56. -/
theorem test_fetch_256 : runAndPc (step (atPc 256 [])) =
    some (.faulted ⟨.outOfBounds, 256, some (.address 256)⟩, 256) := by decide

/-! ### Ports -/

/-- V57: RUN in Halted has no effect. -/
theorem test_run_halted : ((atPc 0 []).setState .halted).assertRun = (atPc 0 []).setState .halted := by decide
/-- V58: no step in Ready; RUN enables it. -/
theorem test_step_ready : step State.reset = .fault .notStarted := by rfl
theorem test_run_ready : State.reset.assertRun.state = .running := by decide
/-- RESET with the image of E1: the first step after RUN runs its first instruction. -/
theorem test_reset_image :
    regAndPc 0 (step (State.resetWith [0x82, 0x00, 0x2A, 0x47, 0x00, 0x01] 0).assertRun) = some (42, 3) := by decide
/-- The fetched word runs as the first instruction after reset. -/
theorem test_withFetchWord : regAndPc 1 (step (State.reset.withFetchWord 24 0x070182)) = some (7, 3) := by decide
/-- R80: the STATUS codes. -/
theorem test_status_halted : ((atPc 0 []).setState .halted).status = (2, none) := by decide
theorem test_status_faulted : ((atPc 0 []).setState (.faulted ⟨.outOfBounds, 0, none⟩)).status =
    (3, some ⟨.outOfBounds, 0, none⟩) := by decide
/-- R111, P2: [4, 16, 0] renders as "4", "16", "0", each with a line feed. -/
theorem test_render : renderOut [4, 16, 0] = [0x34, 0x0A, 0x31, 0x36, 0x0A, 0x30, 0x0A] := by decide
theorem test_render_three : renderOut [105] = [0x31, 0x30, 0x35, 0x0A] := by decide

/-! ### Witnesses: a concrete state and operands that meet the hypotheses of each statement -/

/-- There is an opcode map beside the default one, for the statements over every map: JEQ and JNE exchanged. -/
theorem witness_OpcodeMap : ∃ m, OpcodeMap.ofBytes? { defaultOpcodes.toOpcodeBytes with jeq := 0x56, jne := 0x55 } = some m ∧
    m ≠ defaultOpcodes := ⟨_, rfl, by decide⟩
theorem witness_OpcodeMapIsChecked : defaultOpcodes.lookup 0x56 = some .jne ∧ (0x56 : Byte) = defaultOpcodes.opcode .jne := by
  decide
theorem witness_EncodeDecodeRoundTrip :
    decode defaultOpcodes [0xA2, 0xFF, 0x00, 0x01] = .ok (.mul 255 0, [0x01]) := by rfl
theorem witness_IllegalOpcodesAreRefused : (0xA0 : Byte) ∉ defaultOpcodes.bytes := by decide
theorem witness_StepRunsDecodedInstruction_fetch :
    (atPc 255 [0x01]).state = .running ∧ fetch defaultOpcodes (atPc 255 [0x01]) = .ok .hlt := ⟨rfl, rfl⟩
theorem witness_StepRunsDecodedInstruction_bytes :
    (atPc 253 [0x82, 0x00, 0x07]).pc + (Instr.ldi 0 7).width ≤ 256 ∧
      ∀ k v, (encode defaultOpcodes (.ldi 0 7))[k]? = some v →
        (atPc 253 [0x82, 0x00, 0x07]).mem.get ((atPc 253 [0x82, 0x00, 0x07]).pc + k) = v := by
  refine ⟨by decide, fun k v h => ?_⟩
  rcases k with _ | _ | _ | k
  · cases h; rfl
  · cases h; rfl
  · cases h; rfl
  · cases h
theorem witness_NoStepOutsideRunning_ready : State.reset.state = .ready := by decide
theorem witness_NoStepOutsideRunning_halted : ((atPc 0 []).setState .halted).state = .halted := by decide
theorem witness_NoStepOutsideRunning_faulted :
    ((atPc 0 []).setState (.faulted ⟨.outOfBounds, 0, none⟩)).state = .faulted ⟨.outOfBounds, 0, none⟩ := by decide
theorem witness_NoStepOutsideRunning_next : ∃ t, stepWith defaultOpcodes (atPc 0 [0x01]) = .next t := ⟨_, rfl⟩
theorem witness_FetchRaisesInOrder_pc : (atPc 256 []).state = .running ∧ 256 ≤ (atPc 256 []).pc := by decide
theorem witness_FetchRaisesInOrder_opcode :
    (atPc 255 [0xA0]).pc < 256 ∧ (atPc 255 [0xA0]).mem.get 255 ∉ defaultOpcodes.bytes := by decide
theorem witness_FetchRaisesInOrder_first :
    (atPc 255 [0x47]).pc < 256 ∧ defaultOpcodes.lookup ((atPc 255 [0x47]).mem.get 255) = some .prn ∧
      Mnemonic.prn.format ≠ .n ∧ 256 ≤ (atPc 255 [0x47]).pc + 1 := by decide
theorem witness_FetchRaisesInOrder_second :
    (atPc 254 [0xA2]).pc + 1 < 256 ∧ defaultOpcodes.lookup ((atPc 254 [0xA2]).mem.get 254) = some .mul ∧
      Mnemonic.mul.format = .rr ∧ 256 ≤ (atPc 254 [0xA2]).pc + 2 := by decide
theorem witness_UnknownOpcodeRaises :
    (atPc 255 [0xFF]).state = .running ∧ (atPc 255 [0xFF]).pc < 256 ∧
      (atPc 255 [0xFF]).mem.get 255 ∉ defaultOpcodes.bytes := by decide
theorem witness_UnknownOpcodeRaises_then : ∃ t, stepWith defaultOpcodes (atPc 255 [0xFF]) = .next t := ⟨_, rfl⟩
theorem witness_CheckRegAcceptsExactlyEight : (7 : Byte).toNat < 8 ∧ 8 ≤ (8 : Byte).toNat := by decide
theorem witness_MemoryPrimitivesAreBounded : Memory.wf [(255, 1)] = true ∧ 255 < 256 ∧ 256 ≤ 256 := by decide

theorem witness_LdiRule_step :
    (atPc 253 [0x82, 0x07, 0xFF]).state = .running ∧ (atPc 253 [0x82, 0x07, 0xFF]).pc + 2 < 256 ∧
      (atPc 253 [0x82, 0x07, 0xFF]).mem.get 253 = defaultOpcodes.ldi ∧
      (atPc 253 [0x82, 0x07, 0xFF]).mem.get 254 = regByte 7 := by decide
/-- The bad-index clause of the ten rules, of AluContract and of CheckReg: the first and the last byte that names no
register. -/
theorem witness_badRegister : 8 ≤ (8 : Byte).toNat ∧ 8 ≤ (255 : Byte).toNat := by decide
theorem witness_LdiRule_top :
    (atPc 254 [0x82]).state = .running ∧ (atPc 254 [0x82]).mem.get 254 = defaultOpcodes.ldi ∧
      (atPc 254 [0x82]).pc = 254 ∧ (atPc 255 [0x82]).mem.get 255 = defaultOpcodes.ldi ∧ (atPc 255 [0x82]).pc = 255 := by
  decide
theorem witness_PrnRule_step :
    (atPc 254 [0x47, 0x07]).state = .running ∧ (atPc 254 [0x47, 0x07]).pc + 1 < 256 ∧
      (atPc 254 [0x47, 0x07]).mem.get 254 = defaultOpcodes.prn ∧
      (atPc 254 [0x47, 0x07]).mem.get 255 = regByte 7 := by decide
theorem witness_PrnRule_bad : ∃ t, exec (.prn 8) (atPc 0 []) = .next t := ⟨_, rfl⟩
theorem witness_PrnRule_other : Instr.hlt.mnemonic ≠ .prn ∧ ∃ t, exec .hlt (atPc 0 []) = .next t :=
  ⟨by decide, _, rfl⟩
theorem witness_PrnRule_top :
    (atPc 255 [0x47]).mem.get 255 = defaultOpcodes.prn ∧ (atPc 255 [0x47]).pc = 255 := by decide
theorem witness_HltRule :
    (atPc 255 [0x01]).state = .running ∧ (atPc 255 [0x01]).pc < 256 ∧
      (atPc 255 [0x01]).mem.get 255 = defaultOpcodes.hlt := by decide
theorem witness_MulRule_step :
    (atPc 253 [0xA2, 0x00, 0x07]).state = .running ∧ (atPc 253 [0xA2, 0x00, 0x07]).pc + 2 < 256 ∧
      (atPc 253 [0xA2, 0x00, 0x07]).mem.get 253 = defaultOpcodes.mul ∧
      (atPc 253 [0xA2, 0x00, 0x07]).mem.get 254 = regByte 0 ∧
      (atPc 253 [0xA2, 0x00, 0x07]).mem.get 255 = regByte 7 := by decide
theorem witness_MulRule_top :
    (atPc 254 [0xA2]).mem.get 254 = defaultOpcodes.mul ∧ (atPc 254 [0xA2]).pc = 254 ∧
      (atPc 255 [0xA2]).mem.get 255 = defaultOpcodes.mul ∧ (atPc 255 [0xA2]).pc = 255 := by decide
theorem witness_CmpRule_step :
    (atPc 253 [0xA7, 0x07, 0x00]).state = .running ∧ (atPc 253 [0xA7, 0x07, 0x00]).pc + 2 < 256 ∧
      (atPc 253 [0xA7, 0x07, 0x00]).mem.get 253 = defaultOpcodes.cmp ∧
      (atPc 253 [0xA7, 0x07, 0x00]).mem.get 254 = regByte 7 ∧
      (atPc 253 [0xA7, 0x07, 0x00]).mem.get 255 = regByte 0 := by decide
theorem witness_CmpRule_bad : ∃ t, exec (.cmp 0 8) (atPc 0 []) = .next t := ⟨_, rfl⟩
theorem witness_CmpRule_other : Instr.hlt.mnemonic ≠ .cmp ∧ ∃ t, exec .hlt (atPc 0 []) = .next t :=
  ⟨by decide, _, rfl⟩
theorem witness_CmpRule_top :
    (atPc 254 [0xA7]).mem.get 254 = defaultOpcodes.cmp ∧ (atPc 254 [0xA7]).pc = 254 ∧
      (atPc 255 [0xA7]).mem.get 255 = defaultOpcodes.cmp ∧ (atPc 255 [0xA7]).pc = 255 := by decide
theorem witness_PushRule : (atPc 0 [0x45, 0x07]).mem.wf = true ∧ (atPc 255 [0x45]).state = .running ∧
    (atPc 255 [0x45]).mem.get 255 = defaultOpcodes.push ∧ (atPc 255 [0x45]).pc = 255 := by decide
theorem witness_PopRule : (6 : Fin 8) ≠ 7 ∧ (atPc 255 [0x46]).state = .running ∧
    (atPc 255 [0x46]).mem.get 255 = defaultOpcodes.pop ∧ (atPc 255 [0x46]).pc = 255 := by decide
theorem witness_JmpRule_step :
    (((atPc 254 [0x54, 0x07]).writeReg 7 254).state = .running) ∧ ((atPc 254 [0x54, 0x07]).writeReg 7 254).pc + 1 < 256 ∧
      ((atPc 254 [0x54, 0x07]).writeReg 7 254).mem.get 254 = defaultOpcodes.jmp ∧
      ((atPc 254 [0x54, 0x07]).writeReg 7 254).mem.get 255 = regByte 7 ∧
      (((atPc 254 [0x54, 0x07]).writeReg 7 254).readReg 7).toNat = ((atPc 254 [0x54, 0x07]).writeReg 7 254).pc := by decide
theorem witness_JmpRule_top :
    (atPc 255 [0x54]).mem.get 255 = defaultOpcodes.jmp ∧ (atPc 255 [0x54]).pc = 255 := by decide
theorem witness_JeqRule : ((atPc 255 [0x55]).setEqual true).equal = true ∧ (atPc 255 [0x55]).equal = false ∧
    (atPc 255 [0x55]).state = .running ∧ (atPc 255 [0x55]).mem.get 255 = defaultOpcodes.jeq ∧
    (atPc 255 [0x55]).pc = 255 := by decide
theorem witness_JneRule : ((atPc 255 [0x56]).setEqual true).equal = true ∧ (atPc 255 [0x56]).equal = false ∧
    (atPc 255 [0x56]).state = .running ∧ (atPc 255 [0x56]).mem.get 255 = defaultOpcodes.jne ∧
    (atPc 255 [0x56]).pc = 255 := by decide
theorem witness_AluContract : AluOp.add ≠ .mul ∧ 8 ≤ (8 : Byte).toNat := by decide
theorem witness_BadRegisterIndexRecord_first : 8 ≤ (8 : Byte).toNat ∧ (atPc 0 []).equal = false ∧
    ((atPc 0 []).setEqual true).equal = true := by decide
theorem witness_BadRegisterIndexRecord_second : 8 ≤ (255 : Byte).toNat ∧
    Instr.cmp 0 255 = .cmp (regByte 0) 255 := by decide

theorem witness_RegisterWriteFrame_ldi :
    (∃ t, exec (.ldi 0 5) (atPc 0 []) = .next t) ∧ regByte 7 ≠ (0 : Byte) := ⟨⟨_, rfl⟩, by decide⟩
theorem witness_RegisterWriteFrame_mul : ∃ t, exec (.mul 0 8) (atPc 0 []) = .next t := ⟨_, rfl⟩
theorem witness_NoRegisterWriteFrame :
    (Instr.cmp 0 7).mnemonic ∈ [Mnemonic.prn, .hlt, .cmp, .jmp, .jeq, .jne] ∧
      ∃ t, exec (.cmp 0 7) (atPc 0 []) = .next t := ⟨by decide, _, rfl⟩
theorem witness_PushFrame : (atPc 0 [0x45]).mem.wf = true ∧ (0 : Nat) ≠ (atPc 0 [0x45]).decSp.spAddr ∧
    ∃ t, exec (.push 7) (atPc 0 [0x45]) = .next t := ⟨by decide, by decide, _, rfl⟩
theorem witness_PopFrame : (∃ t, exec (.pop 0) (atPc 0 [0x46]) = .next t) ∧ (1 : Fin 8) ≠ 7 ∧ regByte 1 ≠ (0 : Byte) :=
  ⟨⟨_, rfl⟩, by decide, by decide⟩
theorem witness_OnlyCmpChangesEqual :
    ∃ t, stepWith defaultOpcodes (atPc 0 [0xA7, 0x00, 0x00]) = .next t ∧ t.equal ≠ (atPc 0 [0xA7, 0x00, 0x00]).equal :=
  ⟨_, rfl, by decide⟩
theorem witness_OnlyConditionalJumpsReadEqual :
    (Instr.push 7).mnemonic ∉ [Mnemonic.jeq, .jne, .cmp] ∧ ∃ t, exec (.push 7) (atPc 0 []) = .next t :=
  ⟨by decide, _, rfl⟩
theorem witness_OnlyPrnAppendsOutput_prn : (atPc 254 [0x47, 0x07]).state = .running ∧
    fetch defaultOpcodes (atPc 254 [0x47, 0x07]) = .ok (.prn (regByte 7)) := ⟨rfl, rfl⟩
theorem witness_OnlyPrnAppendsOutput_fault : ∃ t f, stepWith defaultOpcodes (atPc 0 [0x47, 0x08]) = .next t ∧
    t.state = .faulted f := ⟨_, _, rfl, rfl⟩
theorem witness_OnlyPushChangesMemory :
    ∃ t, stepWith defaultOpcodes ((atPc 0 [0x45, 0x00]).writeReg 0 9) = .next t ∧
      t.mem ≠ ((atPc 0 [0x45, 0x00]).writeReg 0 9).mem := ⟨_, rfl, by decide⟩
theorem witness_PcMovesByWidthOrJump : ∃ t, stepWith defaultOpcodes (atPc 255 [0x01]) = .next t ∧
    ∀ f, t.state ≠ .faulted f := ⟨_, rfl, fun _ h => by cases h⟩
theorem witness_DispatchIsExhaustive : (atPc 0 [0x00]).state = .running ∧ (atPc 0 [0x00]).pc < 256 ∧
    (atPc 0 [0x00]).mem.get 0 = 0x00 ∧ defaultOpcodes.lookup 0x00 = none := by decide
theorem witness_FaultIsPrecise : ∃ t f, stepWith defaultOpcodes (atPc 256 []) = .next t ∧ t.state = .faulted f :=
  ⟨_, _, rfl, rfl⟩
theorem witness_UnsupportedAluNeverRaised : ∀ f, (atPc 0 []).state ≠ .faulted f := fun _ h => by cases h
theorem witness_RunStateTransitions_run : State.reset.state = .ready := by decide
theorem witness_RunStateTransitions_step : (atPc 0 [0x01]).state = .running := by decide
theorem witness_RunStateTransitions_change : ∃ t, transition defaultOpcodes .step (atPc 0 [0x01]) = .next t ∧
    t.state ≠ (atPc 0 [0x01]).state := ⟨_, rfl, by decide⟩

/-- A Running state with memory in use, at the last address, that meets the invariant, and takes a step. -/
theorem witness_StepKeepsInvariant : (atPc 255 [0x01]).Inv defaultOpcodes ∧ ∃ t, step (atPc 255 [0x01]) = .next t :=
  ⟨⟨by decide, by decide, fun _ h => by cases h⟩, _, rfl⟩
theorem witness_ResetStateValues : (List.replicate 256 (7 : Byte)).length = 256 := List.length_replicate
theorem witness_RunHasExactlyOneEnd : (atPc 0 [0x54, 0x00]).state = .running := by decide
theorem witness_OutputIsWriteOnly : ∃ t, stepWith defaultOpcodes (atPc 0 [0x47, 0x07]) = .next t := ⟨_, rfl⟩
theorem witness_PushThenPop : (atPc 0 [0x45, 0x00, 0x46, 0x07]).mem.wf = true ∧ (0 : Fin 8) ≠ 7 := by decide
theorem witness_PushedByteIsFetched_unknown :
    (atPc 0 [0x45, 0x00]).mem.wf = true ∧ defaultOpcodes.lookup ((atPc 0 [0x45, 0x00]).decSp.readReg 0) = none ∧
      ∃ t, exec (.push (regByte 0)) (atPc 0 [0x45, 0x00]) = .next t := ⟨by decide, by decide, _, rfl⟩
theorem witness_PushedByteIsFetched_hlt :
    defaultOpcodes.lookup (((atPc 0 [0x45, 0x00]).writeReg 0 1).decSp.readReg 0) = some .hlt := by decide

end Sys2Proof.Tests
end

section
/-! The memory primitives (spec/20_memory.md R42, R43): what MemRead gives on a memory that was written, from the rules of
`Memory.set` and `Memory.get`. -/

namespace Sys2Proof.Machine

/-- MemRead sees a memory only through the byte of the cell it reads. -/
theorem memRead_congr {mem mem' : Memory} {a : Nat} (h : mem'.get a = mem.get a) : memRead mem' a = memRead mem a := by
  simp only [memRead, h]

theorem memRead_set_same {mem : Memory} (hm : mem.wf = true) {a : Nat} (ha : a < 256) (v : Byte) :
    memRead (mem.set a v) a = .ok v := by
  rw [memRead_of_lt ha, Memory.get_set_same hm]

/-- For every other address, also one outside the memory: both reads raise alike there. -/
theorem memRead_set_other {mem : Memory} (hm : mem.wf = true) {a b : Nat} (h : b ≠ a) (v : Byte) :
    memRead (mem.set a v) b = memRead mem b :=
  memRead_congr (Memory.get_set_other hm h v)

/-- Settles O10: the bounds check decides between a raise and the cell's byte, and the memory a write gives is
`Memory.set`'s, which keeps the canonical form and changes one read. -/
theorem memoryPrimitivesAreBounded : Obligations.MemoryPrimitivesAreBounded := by
  refine ⟨fun mem a v ha => ?outside, fun mem a ha => ?read, fun mem a v hm ha => ?write⟩
  case outside => exact ⟨memRead_of_ge ha, memWrite_of_ge ha v⟩
  case read => exact memRead_of_lt ha
  case write =>
    exact ⟨mem.set a v, memWrite_of_lt ha v, Memory.wf_set hm ha v, memRead_set_same hm ha v,
      fun _ hb => memRead_set_other hm hb v⟩

end Sys2Proof.Machine
end

section
/-! The Instruction Table (spec/30_encoding.md R65 to R67): under a map the lookup of a byte and the opcode of a mnemonic
are inverse to each other, because the check of R66 leaves no two mnemonics with one opcode. -/

namespace Sys2Proof

/-- The ten mnemonics, in the order of `OpcodeBytes.bytes`. -/
def Mnemonic.all : List Mnemonic := [.ldi, .prn, .hlt, .mul, .push, .pop, .cmp, .jmp, .jeq, .jne]

theorem Mnemonic.all_nodup : Mnemonic.all.Nodup := by decide

theorem Mnemonic.mem_all (k : Mnemonic) : k ∈ Mnemonic.all := by
  cases k <;> decide

theorem OpcodeBytes.bytes_eq_map (b : OpcodeBytes) : b.bytes = Mnemonic.all.map b.opcode := rfl

theorem OpcodeBytes.mem_bytes_iff {b : OpcodeBytes} {op : Byte} : op ∈ b.bytes ↔ ∃ k, op = b.opcode k := by
  simp [OpcodeBytes.bytes_eq_map, Mnemonic.mem_all, eq_comm]

theorem OpcodeBytes.bytes_nodup_iff (b : OpcodeBytes) : b.bytes.Nodup ↔ ∀ k k', b.opcode k = b.opcode k' → k = k' := by
  simp [OpcodeBytes.bytes_eq_map, List.nodup_map_iff_inj_on Mnemonic.all_nodup, Mnemonic.mem_all]

theorem OpcodeMap.ofBytes?_eq_some_iff {b : OpcodeBytes} {m : OpcodeMap} :
    OpcodeMap.ofBytes? b = some m ↔ m.toOpcodeBytes = b := by
  constructor
  · intro h
    obtain ⟨_, hm⟩ := Option.dite_none_right_eq_some.mp h
    cases hm
    rfl
  · rintro rfl
    exact OpcodeMap.ofBytes?_toOpcodeBytes m

/-- The check of R66 gives a map of the same ten bytes exactly when no two mnemonics share an opcode. -/
theorem OpcodeMap.exists_ofBytes?_iff (b : OpcodeBytes) :
    (∃ m, OpcodeMap.ofBytes? b = some m ∧ m.toOpcodeBytes = b) ↔ ∀ k k', b.opcode k = b.opcode k' → k = k' := by
  rw [← OpcodeBytes.bytes_nodup_iff]
  constructor
  · rintro ⟨m, -, rfl⟩
    exact m.bytes_nodup
  · intro h
    obtain ⟨m, hm⟩ := Option.ne_none_iff_exists'.mp fun hn => (OpcodeMap.ofBytes?_eq_none b).mp hn h
    exact ⟨m, hm, OpcodeMap.ofBytes?_eq_some_iff.mp hm⟩

theorem OpcodeMap.opcode_injective (m : OpcodeMap) {k k' : Mnemonic} (h : m.opcode k = m.opcode k') : k = k' :=
  (OpcodeBytes.bytes_nodup_iff _).mp m.bytes_nodup k k' h

/-- The lookup finds nothing exactly for a byte that is none of the map's ten (R67). -/
theorem OpcodeMap.lookup_eq_none_iff {m : OpcodeMap} {op : Byte} : m.lookup op = none ↔ op ∉ m.bytes := by
  unfold OpcodeMap.lookup
  split_ifs <;> simp_all [OpcodeBytes.bytes]

/-- The lookup finds some mnemonic, and that one has the same opcode. -/
@[simp] theorem OpcodeMap.lookup_opcode (m : OpcodeMap) (k : Mnemonic) : m.lookup (m.opcode k) = some k := by
  have hmem : m.opcode k ∈ m.bytes := OpcodeBytes.mem_bytes_iff.mpr ⟨k, rfl⟩
  obtain ⟨k', hk'⟩ := Option.ne_none_iff_exists'.mp fun hn => OpcodeMap.lookup_eq_none_iff.mp hn hmem
  rw [hk', m.opcode_injective (OpcodeMap.opcode_of_lookup hk')]

theorem OpcodeMap.lookup_eq_some_iff {m : OpcodeMap} {op : Byte} {k : Mnemonic} :
    m.lookup op = some k ↔ op = m.opcode k :=
  ⟨OpcodeMap.opcode_of_lookup, fun h => h ▸ m.lookup_opcode k⟩

end Sys2Proof
end

section
/-! The encoding as an opcode byte and operand bytes (spec/30_encoding.md R61), and with it what the check of R66 leaves
to the map: the opcode byte alone. -/

namespace Sys2Proof

/-- The operand bytes of an instruction, at ascending addresses; `encode_eq_cons` ties them to `encode`. -/
def Instr.operands : Instr → List Byte
  | .ldi a b => [a, b]
  | .prn a => [a]
  | .hlt => []
  | .mul a b => [a, b]
  | .push a => [a]
  | .pop a => [a]
  | .cmp a b => [a, b]
  | .jmp a => [a]
  | .jeq a => [a]
  | .jne a => [a]

theorem encode_eq_cons (m : OpcodeMap) (i : Instr) : encode m i = m.opcode i.mnemonic :: i.operands := by
  cases i <;> rfl

@[simp] theorem length_encode (m : OpcodeMap) (i : Instr) : (encode m i).length = i.width := by
  cases i <;> rfl

theorem drop_one_encode (m : OpcodeMap) (i : Instr) : (encode m i).drop 1 = i.operands := by
  rw [encode_eq_cons, List.drop_one, List.tail_cons]

/-- Settles O43: distinct bytes are an injective opcode function, whose inverse the lookup is; the map gives an encoding
no more than its first byte. -/
theorem opcodeMapIsChecked : Obligations.OpcodeMapIsChecked := by
  refine ⟨OpcodeMap.exists_ofBytes?_iff, fun b => ?refused, fun m op k => OpcodeMap.lookup_eq_some_iff,
    fun m m' i => ?encoding⟩
  case refused =>
    rw [OpcodeMap.ofBytes?_eq_none, OpcodeBytes.bytes_nodup_iff]
    push Not
    exact exists₂_congr fun _ _ => and_comm
  case encoding => exact ⟨length_encode m i, by rw [drop_one_encode, drop_one_encode]⟩

end Sys2Proof
end

section
/-! The decoder reads back exactly encodings (spec/30_encoding.md R61 to R63, R70), over any source of bytes: it answers an
instruction exactly when the source supplies that instruction's encoding. Both round trips are this for a list of bytes. -/

namespace Sys2Proof

/-- The source `read` holds `bytes` from offset 0 on. -/
def Supplies {ε : Type} (read : Nat → Except ε Byte) (bytes : List Byte) : Prop :=
  ∀ k v, bytes[k]? = some v → read k = .ok v

@[simp] theorem supplies_nil {ε : Type} (read : Nat → Except ε Byte) : Supplies read [] := by
  simp [Supplies]

@[simp] theorem supplies_cons {ε : Type} {read : Nat → Except ε Byte} {b : Byte} {bs : List Byte} :
    Supplies read (b :: bs) ↔ read 0 = .ok b ∧ Supplies (fun k => read (k + 1)) bs := by
  constructor
  · exact fun h => ⟨h 0 b rfl, fun k v hk => h (k + 1) v hk⟩
  · rintro ⟨h0, hs⟩ (_ | k) v hv
    · rw [h0, Option.some.inj hv]
    · exact hs k v hv

theorem readOne_eq_ok_iff {ε : Type} {read : Nat → Except ε Byte} {mk : Byte → Instr} {i : Instr} :
    readOne read mk = .ok i ↔ ∃ a, read 1 = .ok a ∧ i = mk a := by
  refine ⟨readOne_ok, ?_⟩
  rintro ⟨a, ha, rfl⟩
  simp [readOne, ha]

theorem readTwo_eq_ok_iff {ε : Type} {read : Nat → Except ε Byte} {mk : Byte → Byte → Instr} {i : Instr} :
    readTwo read mk = .ok i ↔ ∃ a b, read 1 = .ok a ∧ read 2 = .ok b ∧ i = mk a b := by
  refine ⟨readTwo_ok, ?_⟩
  rintro ⟨a, b, ha, hb, rfl⟩
  simp [readTwo, ha, hb]

/-- Reading a mnemonic's operands gives an instruction of that mnemonic. -/
theorem mnemonic_of_readOperands {ε : Type} {read : Nat → Except ε Byte} {k : Mnemonic} {i : Instr}
    (h : readOperands read k = .ok i) : i.mnemonic = k := by
  cases k
  case hlt => cases h; rfl
  case ldi | mul | cmp => obtain ⟨a, b, -, -, rfl⟩ := readTwo_ok h; rfl
  all_goals obtain ⟨a, -, rfl⟩ := readOne_ok h; rfl

/-- Reading its mnemonic's operands gives an instruction exactly when the bytes after the opcode are its operands. -/
theorem readOperands_mnemonic_eq_ok_iff {ε : Type} {read : Nat → Except ε Byte} {i : Instr} :
    readOperands read i.mnemonic = .ok i ↔ Supplies (fun k => read (k + 1)) i.operands := by
  cases i <;> simp [Instr.mnemonic, Instr.operands, readOperands, readOne_eq_ok_iff, readTwo_eq_ok_iff]

theorem decodeFrom_of_lookup {ε : Type} {m : OpcodeMap} {unknown : Byte → ε} {read : Nat → Except ε Byte} {op : Byte}
    {k : Mnemonic} (h0 : read 0 = .ok op) (hk : m.lookup op = some k) :
    decodeFrom m unknown read = readOperands read k := by
  simp [decodeFrom, h0, hk]

theorem decodeFrom_of_lookup_none {ε : Type} {m : OpcodeMap} {unknown : Byte → ε} {read : Nat → Except ε Byte}
    {op : Byte} (h0 : read 0 = .ok op) (hk : m.lookup op = none) :
    decodeFrom m unknown read = .error (unknown op) := by
  simp [decodeFrom, h0, hk]

/-- The decoder answers an instruction exactly when its source supplies that instruction's encoding. -/
theorem decodeFrom_eq_ok_iff {ε : Type} {m : OpcodeMap} {unknown : Byte → ε} {read : Nat → Except ε Byte} {i : Instr} :
    decodeFrom m unknown read = .ok i ↔ Supplies read (encode m i) := by
  rw [encode_eq_cons, supplies_cons, ← readOperands_mnemonic_eq_ok_iff]
  constructor
  · intro h
    obtain ⟨op, k, h0, hk, hr⟩ := decodeFrom_ok h
    obtain rfl := OpcodeMap.opcode_of_lookup hk
    obtain rfl := mnemonic_of_readOperands hr
    exact ⟨h0, hr⟩
  · rintro ⟨h0, hr⟩
    rw [decodeFrom_of_lookup h0 (m.lookup_opcode _), hr]

theorem byteAt_eq_ok_iff {bytes : List Byte} {k : Nat} {v : Byte} : byteAt bytes k = .ok v ↔ bytes[k]? = some v := by
  unfold byteAt
  split
  · next b hb => simp [hb]
  · next hb => simp [hb]

theorem byteAt_error {bytes : List Byte} {k : Nat} {e : DecodeError} (h : byteAt bytes k = .error e) :
    e = .missingByte k := by
  unfold byteAt at h
  split at h <;> cases h
  rfl

/-- A list of bytes supplies those that it begins with. -/
theorem supplies_byteAt_iff {bytes l : List Byte} : Supplies (byteAt bytes) l ↔ l <+: bytes := by
  simp only [Supplies, byteAt_eq_ok_iff, List.prefix_iff_getElem?]
  constructor
  · exact fun h k hk => h k _ (List.getElem?_eq_getElem hk)
  · intro h k v hv
    obtain ⟨hk, rfl⟩ := List.getElem?_eq_some_iff.mp hv
    exact h k hk

theorem decode_eq_ok_iff {m : OpcodeMap} {bytes rest : List Byte} {i : Instr} :
    decode m bytes = .ok (i, rest) ↔ decodeFrom m .unknownOpcode (byteAt bytes) = .ok i ∧ rest = bytes.drop i.width := by
  unfold decode
  split
  · next e he => simp [he]
  · next j hj =>
    simp only [hj, Except.ok.injEq, Prod.mk.injEq, eq_comm (a := rest)]
    exact and_congr_right fun h => by rw [h]

theorem decode_eq_error_iff {m : OpcodeMap} {bytes : List Byte} {e : DecodeError} :
    decode m bytes = .error e ↔ decodeFrom m .unknownOpcode (byteAt bytes) = .error e := by
  unfold decode
  split
  · next e' he => simp [he]
  · next j hj => simp [hj]

/-- Decoding a list gives an instruction and a rest exactly when the list is the instruction's encoding and that rest. -/
theorem decode_eq_ok_iff_encode_append {m : OpcodeMap} {bytes rest : List Byte} {i : Instr} :
    decode m bytes = .ok (i, rest) ↔ encode m i ++ rest = bytes := by
  rw [decode_eq_ok_iff, decodeFrom_eq_ok_iff, supplies_byteAt_iff, List.prefix_iff_eq_append, length_encode]
  constructor
  · rintro ⟨h, rfl⟩
    exact h
  · rintro rfl
    rw [List.drop_left' (length_encode m i)]
    exact ⟨rfl, rfl⟩

/-- Settles O1: the bytes begin with the encoding, which is when the decoder answers. -/
theorem decodeEncodeRoundTrip : Obligations.DecodeEncodeRoundTrip := by
  intro m i rest
  exact decode_eq_ok_iff_encode_append.mpr rfl

/-- Settles O2: the decoder answers only when the bytes begin with the encoding. -/
theorem encodeDecodeRoundTrip : Obligations.EncodeDecodeRoundTrip := by
  intro m bytes i rest h
  exact decode_eq_ok_iff_encode_append.mp h

end Sys2Proof
end

section
/-! Illegal opcodes (spec/30_encoding.md R67): the decoder's refusal by name, and the count of the bytes that it refuses. -/

namespace Sys2Proof

/-- A byte that the table names is not refused as an opcode: operands can only be missing. -/
theorem decode_ne_unknownOpcode_of_lookup {m : OpcodeMap} {op : Byte} {k : Mnemonic} (hk : m.lookup op = some k)
    (rest : List Byte) : decode m (op :: rest) ≠ .error (.unknownOpcode op) := by
  rw [Ne, decode_eq_error_iff, decodeFrom_of_lookup (byteAt_eq_ok_iff.mpr rfl) hk]
  intro h
  rcases Machine.readOperands_error h with h1 | ⟨-, h2⟩
  · cases byteAt_error h1
  · cases byteAt_error h2

theorem decode_cons_eq_unknownOpcode_iff {m : OpcodeMap} {op : Byte} {rest : List Byte} :
    decode m (op :: rest) = .error (.unknownOpcode op) ↔ m.lookup op = none := by
  constructor
  · intro h
    by_contra hk
    obtain ⟨k, hk⟩ := Option.ne_none_iff_exists'.mp hk
    exact decode_ne_unknownOpcode_of_lookup hk rest h
  · exact fun hk => decode_eq_error_iff.mpr (decodeFrom_of_lookup_none (byteAt_eq_ok_iff.mpr rfl) hk)

/-- Each byte once, in rising order. -/
def Byte.all : List Byte := (List.range 256).map (BitVec.ofNat 8)

theorem Byte.mem_all (v : Byte) : v ∈ Byte.all :=
  List.mem_map.mpr ⟨v.toNat, List.mem_range.mpr v.isLt, by simp⟩

theorem Byte.all_nodup : Byte.all.Nodup := by
  refine List.Nodup.map_on (fun a ha b hb h => ?_) List.nodup_range
  rw [List.mem_range] at ha hb
  bv_omega

/-- A duplicate-free list of bytes leaves out all bytes but its own. -/
theorem Byte.countP_not_mem {l : List Byte} (hl : l.Nodup) : Byte.all.countP (· ∉ l) = 256 - l.length := by
  have hperm : (Byte.all.filter (· ∈ l)).Perm l :=
    (List.perm_ext_iff_of_nodup (Byte.all_nodup.filter _) hl).mpr fun v => by simp [Byte.mem_all]
  have hin : Byte.all.countP (· ∈ l) = l.length := by rw [List.countP_eq_length_filter, hperm.length_eq]
  have hsum := List.length_eq_countP_add_countP (· ∈ l) (l := Byte.all)
  have hlen : Byte.all.length = 256 := by simp [Byte.all]
  simp only [decide_eq_true_eq] at hsum
  omega

/-- Settles O3: a refusal by name is a failed lookup, which is a byte outside the ten; ten distinct bytes leave 246. -/
theorem illegalOpcodesAreRefused : Obligations.IllegalOpcodesAreRefused := by
  refine ⟨fun m op rest => ?refusal, fun m => ?count⟩
  case refusal => rw [decode_cons_eq_unknownOpcode_iff, OpcodeMap.lookup_eq_none_iff]
  case count =>
    calc ((List.range 256).filter fun n => decide (m.lookup (BitVec.ofNat 8 n) = none)).length
        = Byte.all.countP (· ∉ m.bytes) := by
          simp only [OpcodeMap.lookup_eq_none_iff, ← List.countP_eq_length_filter, Byte.all, List.countP_map]
          rfl
      _ = 256 - m.bytes.length := Byte.countP_not_mem m.bytes_nodup

end Sys2Proof
end

section
/-! Every meaning and every Running step answers a next state (spec/40_execution_loop.md R90): the one way not to go on is a
raise, and a raise is a next state too. -/

namespace Sys2Proof.Machine

theorem exists_next_orRaise {α : Type} {s : State} {c : Except Raise α} {k : α → Result}
    (hk : ∀ v, ∃ t, k v = .next t) : ∃ t, orRaise s c k = .next t := by
  cases c with
  | ok v => exact hk v
  | error r => exact ⟨_, rfl⟩

theorem exists_next_withReg {s : State} {a : Byte} {k : Fin 8 → Result} (hk : ∀ r, ∃ t, k r = .next t) :
    ∃ t, withReg s a k = .next t :=
  exists_next_orRaise hk

theorem exists_next_withRegs {s : State} {a b : Byte} {k : Fin 8 → Fin 8 → Result}
    (hk : ∀ r q, ∃ t, k r q = .next t) : ∃ t, withRegs s a b k = .next t :=
  exists_next_withReg fun r => exists_next_withReg (hk r)

theorem exists_next_jumpTo (a : Byte) (s : State) : ∃ t, jumpTo a s = .next t :=
  exists_next_withReg fun _ => ⟨_, rfl⟩

theorem exists_next_exec (i : Instr) (s : State) : ∃ t, exec i s = .next t := by
  cases i with
  | ldi | prn => exact exists_next_withReg fun _ => ⟨_, rfl⟩
  | mul | cmp => exact exists_next_withRegs fun _ _ => ⟨_, rfl⟩
  | push | pop => exact exists_next_withReg fun _ => exists_next_orRaise fun _ => ⟨_, rfl⟩
  | hlt => exact ⟨_, rfl⟩
  | jmp a => exact exists_next_jumpTo a s
  | jeq a =>
    simp only [exec, execJeq]
    split
    · exact exists_next_jumpTo a s
    · exact ⟨_, rfl⟩
  | jne a =>
    simp only [exec, execJne]
    split
    · exact ⟨_, rfl⟩
    · exact exists_next_jumpTo a s

theorem exists_next_stepWith (m : OpcodeMap) {s : State} (hs : s.state = .running) : ∃ t, stepWith m s = .next t := by
  rw [stepWith_running hs]
  exact exists_next_orRaise fun i => exists_next_exec i s

theorem raisesKind_raise (s : State) (r : Raise) : RaisesKind r.kind (raise s r) :=
  ⟨_, _, rfl, rfl, rfl⟩

theorem fetch_of_lookup_none {m : OpcodeMap} {s : State} (hpc : s.pc < 256) (hk : m.lookup (s.mem.get s.pc) = none) :
    fetch m s = .error (.unknownInstruction (s.mem.get s.pc)) :=
  decodeFrom_of_lookup_none (memRead_of_lt hpc) hk

theorem stepWith_of_lookup_none {m : OpcodeMap} {s : State} (hs : s.state = .running) (hpc : s.pc < 256)
    (hk : m.lookup (s.mem.get s.pc) = none) :
    stepWith m s = raise s (.unknownInstruction (s.mem.get s.pc)) := by
  rw [stepWith_running hs, fetch_of_lookup_none hpc hk, orRaise_error]

/-- Settles O32: the lookup of a byte finds a mnemonic, whose opcode it then is, or nothing, which the fetch raises; and no
step is left without a next state. -/
theorem dispatchIsExhaustive : Obligations.DispatchIsExhaustive := by
  refine ⟨fun m op => ?byte, fun m s hs => exists_next_stepWith m hs⟩
  case byte =>
    cases hk : m.lookup op with
    | some k => exact .inl ⟨k, rfl, OpcodeMap.opcode_of_lookup hk⟩
    | none =>
      refine .inr ⟨rfl, fun s hs hpc hop => ?_⟩
      subst hop
      rw [stepWith_of_lookup_none hs hpc hk]
      exact raisesKind_raise s _

end Sys2Proof.Machine
end

section
/-! The run-state machine (spec/40_execution_loop.md R83): what an instruction, a step and RUN do to the run state. -/

namespace Sys2Proof.Machine

/-- HLT halts; any other instruction keeps the run state, or faults on a register operand that names none. -/
theorem Effect.state_cases {s t : State} {i : Instr} (h : Effect s i t) :
    (i = .hlt ∧ t.state = .halted) ∨
      (i ≠ .hlt ∧ (t.state = s.state ∨
        ∃ a : Byte, 8 ≤ a.toNat ∧ t.state = .faulted ((Raise.outOfBoundsRegister a).record s.pc))) := by
  cases h with
  | hlt => exact .inl ⟨rfl, rfl⟩
  | badRegister i a ha hi => exact .inr ⟨hi, .inr ⟨a, ha, rfl⟩⟩
  | _ => exact .inr ⟨Instr.noConfusion, .inl rfl⟩

/-- The rows of R83 for a step, with the fetch or the operand that raised. -/
theorem stepWith_state_cases {m : OpcodeMap} {s t : State} (h : stepWith m s = .next t) :
    (fetch m s = .ok .hlt ∧ t.state = .halted) ∨
      (∃ r, fetch m s = .error r ∧ t.state = .faulted (r.record s.pc)) ∨
      (∃ i, fetch m s = .ok i ∧ i ≠ .hlt ∧ (t.state = .running ∨
        ∃ a : Byte, 8 ≤ a.toNat ∧ t.state = .faulted ((Raise.outOfBoundsRegister a).record s.pc))) := by
  obtain ⟨hs, ⟨i, hi, he⟩ | ⟨r, hr, rfl⟩⟩ := stepWith_cases h
  · rcases he.state_cases with ⟨rfl, ht⟩ | ⟨hne, ht⟩
    · exact .inl ⟨hi, ht⟩
    · exact .inr (.inr ⟨i, hi, hne, hs ▸ ht⟩)
  · exact .inr (.inl ⟨r, hr, rfl⟩)

/-- A step that changes the run state ends the run. -/
theorem stepWith_state_of_ne {m : OpcodeMap} {s t : State} (h : stepWith m s = .next t) (hne : t.state ≠ s.state) :
    s.state = .running ∧ (t.state = .halted ∨ ∃ f, t.state = .faulted f) := by
  have hs := (stepWith_cases h).1
  refine ⟨hs, ?_⟩
  rcases stepWith_state_cases h with ⟨-, ht⟩ | ⟨r, -, ht⟩ | ⟨i, -, -, ht | ⟨a, -, ht⟩⟩
  · exact .inl ht
  · exact .inr ⟨_, ht⟩
  · exact absurd (ht.trans hs.symm) hne
  · exact .inr ⟨_, ht⟩

theorem State.assertRun_of_ready {s : State} (hs : s.state = .ready) : s.assertRun = s.setState .running := by
  simp [State.assertRun, hs]

theorem State.assertRun_of_ne_ready {s : State} (hs : s.state ≠ .ready) : s.assertRun = s := by
  unfold State.assertRun
  split
  · next hr => exact absurd hr hs
  all_goals rfl

/-- RUN changes the run state only from Ready, and to Running. -/
theorem State.assertRun_state_of_ne {s : State} (hne : s.assertRun.state ≠ s.state) :
    s.state = .ready ∧ s.assertRun.state = .running := by
  have hs : s.state = .ready := by
    by_contra hr
    exact hne (by rw [State.assertRun_of_ne_ready hr])
  exact ⟨hs, by rw [State.assertRun_of_ready hs, State.setState_state]⟩

/-- Settles O35: each event by its own rule, RESET outright, RUN by `State.assertRun`, and a step by
`stepWith_state_cases`. -/
theorem runStateTransitions : Obligations.RunStateTransitions := by
  refine fun m => ⟨fun s image spInit => ⟨_, rfl, rfl⟩, fun s hs => ?run, fun s hs => ?step, fun s t e ht hne => ?only⟩
  case run => exact ⟨s.assertRun, rfl, by rw [State.assertRun_of_ready hs, State.setState_state]⟩
  case step =>
    obtain ⟨t, ht⟩ := exists_next_stepWith m hs
    exact ⟨t, ht, stepWith_state_cases ht⟩
  case only =>
    cases e with
    | reset image spInit => cases ht; exact .inl ⟨image, spInit, rfl, rfl⟩
    | run => cases ht; exact .inr (.inl ⟨rfl, State.assertRun_state_of_ne hne⟩)
    | step => exact .inr (.inr ⟨rfl, stepWith_state_of_ne ht hne⟩)

end Sys2Proof.Machine
end

section
/-! Fetching by the bytes in memory (spec/40_execution_loop.md R85, spec/60_exceptions.md R167): a fetch answers an
instruction exactly when the cells from pc on hold its encoding, and raises OutOfBounds when memory cuts the encoding
off. -/

namespace Sys2Proof.Machine

theorem memRead_eq_ok_iff {mem : Memory} {a : Nat} {v : Byte} : memRead mem a = .ok v ↔ a < 256 ∧ v = mem.get a := by
  refine ⟨memRead_ok, ?_⟩
  rintro ⟨ha, rfl⟩
  exact memRead_of_lt ha

theorem fetch_eq_ok_iff {m : OpcodeMap} {s : State} {i : Instr} :
    fetch m s = .ok i ↔ Supplies (fun k => memRead s.mem (s.pc + k)) (encode m i) :=
  decodeFrom_eq_ok_iff

/-- The opcode at pc is that of the fetched instruction. -/
theorem opcode_of_fetch {m : OpcodeMap} {s : State} {i : Instr} (h : fetch m s = .ok i) :
    m.opcode i.mnemonic = s.mem.get s.pc := by
  rw [fetch_eq_ok_iff, encode_eq_cons, supplies_cons] at h
  exact (memRead_ok h.1).2

theorem stepWith_of_fetch {m : OpcodeMap} {s : State} {i : Instr} (hs : s.state = .running) (hi : fetch m s = .ok i) :
    stepWith m s = exec i s := by
  rw [stepWith_running hs, hi, orRaise_ok]

/-- The encoding that the opcode at pc begins runs past the last cell: the fetch reads an address outside memory. -/
theorem exists_fetch_eq_outOfBounds {m : OpcodeMap} {s : State} {k : Mnemonic} (hk : s.mem.get s.pc = m.opcode k)
    (hw : 256 < s.pc + k.format.width) : ∃ a, fetch m s = .error (.outOfBoundsAddress a) := by
  cases hf : fetch m s with
  | ok i =>
    obtain rfl : i.mnemonic = k := m.opcode_injective ((opcode_of_fetch hf).trans hk)
    exact absurd (fetch_ok_width hf) (Nat.not_le.mpr hw)
  | error r =>
    rcases fetch_error hf with ⟨j, -, -, -, rfl⟩ | ⟨-, hnone, -⟩
    · exact ⟨_, rfl⟩
    · rw [hk, m.lookup_opcode] at hnone
      cases hnone

theorem raisesKind_stepWith_of_cutOff {m : OpcodeMap} {s : State} {k : Mnemonic} (hs : s.state = .running)
    (hk : s.mem.get s.pc = m.opcode k) (hw : 256 < s.pc + k.format.width) :
    RaisesKind .outOfBounds (stepWith m s) := by
  obtain ⟨a, ha⟩ := exists_fetch_eq_outOfBounds hk hw
  rw [stepWith_running hs, ha, orRaise_error]
  exact raisesKind_raise s _

theorem raisesKind_withReg_of_ge (s : State) {a : Byte} (ha : 8 ≤ a.toNat) (k : Fin 8 → Result) :
    RaisesKind .outOfBounds (withReg s a k) := by
  rw [withReg_of_ge s ha]
  exact raisesKind_raise s _

end Sys2Proof.Machine
end

section
/-! LDI (spec/41_ldi.md R100). -/

namespace Sys2Proof.Machine

theorem exec_ldi (a b : Byte) (s : State) :
    exec (.ldi a b) s = withReg s a fun r => .next ((s.writeReg r b.toNat).advance 3) :=
  rfl

/-- The immediate is stored unchanged. -/
theorem exec_ldi_regByte (r : Fin 8) (b : Byte) (s : State) :
    exec (.ldi (regByte r) b) s = .next { s with x := s.x.set r.val b r.isLt, pc := s.pc + 3 } := by
  rw [exec_ldi, withReg_regByte, State.writeReg, wrap8_toNat]
  rfl

theorem fetch_ldi {m : OpcodeMap} {s : State} (hpc : s.pc + 2 < 256) (hop : s.mem.get s.pc = m.ldi) :
    fetch m s = .ok (.ldi (s.mem.get (s.pc + 1)) (s.mem.get (s.pc + 2))) := by
  have h0 : s.pc < 256 := by omega
  have h1 : s.pc + 1 < 256 := by omega
  simp [fetch_eq_ok_iff, encode, memRead_eq_ok_iff, hop, h0, h1, hpc]

/-- Settles O11: the bytes are LDI's encoding, as a list and in memory; a bad index fails CheckReg, and at 254 and 255
memory ends before the third byte. -/
theorem ldiRule : Obligations.LdiRule := by
  refine ⟨fun m a b => ?decodes, fun s r b => exec_ldi_regByte r b s, fun m s r hs hpc hop ha => ?steps,
    fun s a b ha => raisesKind_withReg_of_ge s ha _, fun m s hs hop hpc => ?top⟩
  case decodes => exact decode_eq_ok_iff_encode_append.mpr rfl
  case steps => rw [stepWith_of_fetch hs (fetch_ldi hpc hop), ha, exec_ldi_regByte]
  case top =>
    have hwidth : Mnemonic.ldi.format.width = 3 := rfl
    exact raisesKind_stepWith_of_cutOff (k := .ldi) hs hop (by omega)

end Sys2Proof.Machine
end

section
/-! The output (spec/10_state.md R30): what emits nothing, a raise and every instruction but PRN. -/

namespace Sys2Proof.Machine

theorem out_of_raise {s t : State} {r : Raise} (h : raise s r = .next t) : t.out = s.out := by
  cases h
  exact State.setState_out s _

theorem Effect.out_of_ne_prn {s t : State} {i : Instr} (h : Effect s i t) (hi : i.mnemonic ≠ .prn) : t.out = s.out := by
  cases h with
  | prn r => exact absurd rfl hi
  | _ => rfl

end Sys2Proof.Machine
end

section
/-! PRN (spec/42_system.md R110). -/

namespace Sys2Proof.Machine

/-- A two-byte encoding in the cells at pc and pc + 1 is fetched. -/
theorem fetch_of_encode_eq_pair {m : OpcodeMap} {s : State} {i : Instr} (hpc : s.pc + 1 < 256)
    (hi : encode m i = [s.mem.get s.pc, s.mem.get (s.pc + 1)]) : fetch m s = .ok i := by
  have h0 : s.pc < 256 := by omega
  simp [fetch_eq_ok_iff, hi, memRead_eq_ok_iff, h0, hpc]

theorem exec_prn (a : Byte) (s : State) :
    exec (.prn a) s = withReg s a fun r => .next ((s.emit (s.readReg r)).advance 2) :=
  rfl

theorem exec_prn_regByte (r : Fin 8) (s : State) :
    exec (.prn (regByte r)) s = .next { s with out := s.out ++ [s.x[r]], pc := s.pc + 2 } := by
  rw [exec_prn, withReg_regByte]
  rfl

theorem fetch_prn {m : OpcodeMap} {s : State} (hpc : s.pc + 1 < 256) (hop : s.mem.get s.pc = m.prn) :
    fetch m s = .ok (.prn (s.mem.get (s.pc + 1))) :=
  fetch_of_encode_eq_pair hpc (by rw [hop]; rfl)

/-- Settles O12: both faults, CheckReg on a bad index and the fetch at 255, are raises, which emit nothing. -/
theorem prnRule : Obligations.PrnRule := by
  refine ⟨fun m a => ?decodes, fun s r => exec_prn_regByte r s, fun s a ha => ?badIndex,
    fun i s t hi ht => (exec_effect ht).out_of_ne_prn hi, fun m s r hs hpc hop ha => ?steps,
    fun m s hs hop hpc => ?top⟩
  case decodes => exact decode_eq_ok_iff_encode_append.mpr rfl
  case badIndex =>
    rw [exec_prn, withReg_of_ge s ha]
    exact ⟨raisesKind_raise s _, fun t => out_of_raise⟩
  case steps => rw [stepWith_of_fetch hs (fetch_prn hpc hop), ha, exec_prn_regByte]
  case top =>
    have hwidth : Mnemonic.prn.format.width = 2 := rfl
    obtain ⟨a, ha⟩ := exists_fetch_eq_outOfBounds (k := .prn) hop (by omega)
    rw [stepWith_running hs, ha, orRaise_error]
    exact ⟨raisesKind_raise s _, fun t => out_of_raise⟩

end Sys2Proof.Machine
end

section
/-! Two register operands (format RR) and the fetch of a three-byte instruction: what MUL and CMP share. -/

namespace Sys2Proof.Machine

@[simp] theorem withRegs_regByte (s : State) (r q : Fin 8) (k : Fin 8 → Fin 8 → Result) :
    withRegs s (regByte r) (regByte q) k = k r q := by
  rw [withRegs, withReg_regByte, withReg_regByte]

/-- The raise names whichever operand CheckReg refuses first. -/
theorem exists_withRegs_eq_raise (s : State) {a b : Byte} (h : 8 ≤ a.toNat ∨ 8 ≤ b.toNat)
    (k : Fin 8 → Fin 8 → Result) : ∃ c, withRegs s a b k = raise s (.outOfBoundsRegister c) := by
  rcases checkReg_cases a with ⟨r, rfl, -⟩ | ⟨ha, -⟩
  · have hr : ¬ 8 ≤ (regByte r).toNat := by rw [regByte_toNat]; omega
    exact ⟨b, by rw [withRegs, withReg_regByte, withReg_of_ge s (h.resolve_left hr)]⟩
  · exact ⟨a, withReg_of_ge s ha _⟩

theorem raisesKind_withRegs_of_ge (s : State) {a b : Byte} (h : 8 ≤ a.toNat ∨ 8 ≤ b.toNat)
    (k : Fin 8 → Fin 8 → Result) : RaisesKind .outOfBounds (withRegs s a b k) := by
  obtain ⟨c, hc⟩ := exists_withRegs_eq_raise s h k
  rw [hc]
  exact raisesKind_raise s _

/-- A three-byte encoding in the cells at pc, pc + 1 and pc + 2 is fetched. -/
theorem fetch_of_encode_eq_triple {m : OpcodeMap} {s : State} {i : Instr} (hpc : s.pc + 2 < 256)
    (hi : encode m i = [s.mem.get s.pc, s.mem.get (s.pc + 1), s.mem.get (s.pc + 2)]) : fetch m s = .ok i := by
  have h0 : s.pc < 256 := by omega
  have h1 : s.pc + 1 < 256 := by omega
  simp [fetch_eq_ok_iff, hi, memRead_eq_ok_iff, h0, h1, hpc]

end Sys2Proof.Machine
end

section
/-! The ALU contract (spec/43_alu.md R120). -/

namespace Sys2Proof.Machine

/-- Narrowing a natural number takes its residue modulo 256. -/
theorem wrap8_natCast (n : Nat) : wrap8 (n : Int) = BitVec.ofNat 8 (n % 256) := by
  rw [wrap8, BitVec.ofInt_natCast]
  exact BitVec.eq_of_toNat_eq (by simp)

/-- `alu_mul_regByte` with the product of R120 written out as a residue. -/
theorem alu_mul_regByte_mod (r q : Fin 8) (s : State) :
    alu .mul (regByte r) (regByte q) s = .next { s with
      x := s.x.set r.val (BitVec.ofNat 8 (s.x[r].toNat * s.x[q].toNat % 256)) r.isLt
      pc := s.pc + 3 } := by
  rw [alu_mul_regByte, State.writeReg, ← Int.natCast_mul, wrap8_natCast]
  rfl

theorem alu_add_regByte (r q : Fin 8) (s : State) :
    alu .add (regByte r) (regByte q) s = raise s .unsupportedAluOperation :=
  withRegs_regByte s r q _

/-- Settles O21: both indices are checked before the operation is looked at, and the one other name is ADD. -/
theorem aluContract : Obligations.AluContract := by
  refine ⟨fun s r q => alu_mul_regByte_mod r q s, fun s r q op hop => ?unsupported,
    fun s a b op h => raisesKind_withRegs_of_ge s h _⟩
  case unsupported =>
    cases op with
    | mul => exact absurd rfl hop
    | add =>
      rw [alu_add_regByte]
      exact raisesKind_raise s _

end Sys2Proof.Machine
end

section
/-! MUL (spec/43_alu.md R121): the ALU contract's MUL, fetched. -/

namespace Sys2Proof.Machine

theorem exec_mul (a b : Byte) (s : State) : exec (.mul a b) s = alu .mul a b s :=
  rfl

theorem fetch_mul {m : OpcodeMap} {s : State} (hpc : s.pc + 2 < 256) (hop : s.mem.get s.pc = m.mul) :
    fetch m s = .ok (.mul (s.mem.get (s.pc + 1)) (s.mem.get (s.pc + 2))) :=
  fetch_of_encode_eq_triple hpc (by rw [hop]; rfl)

/-- Settles O14: the meaning is the ALU's, as is its bad index; at 254 and 255 memory ends before the third byte. -/
theorem mulRule : Obligations.MulRule := by
  refine ⟨fun m a b => ?decodes, fun s r q => alu_mul_regByte_mod r q s, fun m s r q hs hpc hop ha hb => ?steps,
    fun s a b h => raisesKind_withRegs_of_ge s h _, fun m s hs hop hpc => ?top⟩
  case decodes => exact decode_eq_ok_iff_encode_append.mpr rfl
  case steps => rw [stepWith_of_fetch hs (fetch_mul hpc hop), ha, hb, exec_mul, alu_mul_regByte_mod]
  case top =>
    have hwidth : Mnemonic.mul.format.width = 3 := rfl
    exact raisesKind_stepWith_of_cutOff (k := .mul) hs hop (by omega)

end Sys2Proof.Machine
end

section
/-! The flag EQ (spec/10_state.md R28): what leaves it unchanged, a raise and every instruction but CMP. -/

namespace Sys2Proof.Machine

theorem equal_of_raise {s t : State} {r : Raise} (h : raise s r = .next t) : t.equal = s.equal := by
  cases h
  exact State.setState_equal s _

theorem Effect.equal_of_ne_cmp {s t : State} {i : Instr} (h : Effect s i t) (hi : i.mnemonic ≠ .cmp) :
    t.equal = s.equal := by
  cases h with
  | cmp r q => exact absurd rfl hi
  | _ => rfl

end Sys2Proof.Machine
end

section
/-! CMP (spec/43_alu.md R122). -/

namespace Sys2Proof.Machine

theorem equalFlag_eq_decide_toNat (p q : Byte) : equalFlag p q = decide (p.toNat = q.toNat) :=
  decide_eq_decide.mpr BitVec.toNat_inj.symm

theorem exec_cmp (a b : Byte) (s : State) :
    exec (.cmp a b) s =
      withRegs s a b fun r q => .next ((s.setEqual (equalFlag (s.readReg r) (s.readReg q))).advance 3) :=
  rfl

theorem exec_cmp_regByte (r q : Fin 8) (s : State) :
    exec (.cmp (regByte r) (regByte q)) s =
      .next { s with equal := decide (s.x[r].toNat = s.x[q].toNat), pc := s.pc + 3 } := by
  rw [exec_cmp, withRegs_regByte, equalFlag_eq_decide_toNat]
  rfl

theorem fetch_cmp {m : OpcodeMap} {s : State} (hpc : s.pc + 2 < 256) (hop : s.mem.get s.pc = m.cmp) :
    fetch m s = .ok (.cmp (s.mem.get (s.pc + 1)) (s.mem.get (s.pc + 2))) :=
  fetch_of_encode_eq_triple hpc (by rw [hop]; rfl)

/-- Settles O15: both faults, CheckReg on a bad index and the fetch at 254 and 255, are raises, which leave EQ alone. -/
theorem cmpRule : Obligations.CmpRule := by
  refine ⟨fun m a b => ?decodes, fun s r q => exec_cmp_regByte r q s, fun s a b h => ?badIndex,
    fun i s t hi ht => (exec_effect ht).equal_of_ne_cmp hi, fun m s r q hs hpc hop ha hb => ?steps,
    fun m s hs hop hpc => ?top⟩
  case decodes => exact decode_eq_ok_iff_encode_append.mpr rfl
  case badIndex =>
    obtain ⟨c, hc⟩ := exists_withRegs_eq_raise s h _
    rw [exec_cmp, hc]
    exact ⟨raisesKind_raise s _, fun t => equal_of_raise⟩
  case steps => rw [stepWith_of_fetch hs (fetch_cmp hpc hop), ha, hb, exec_cmp_regByte]
  case top =>
    have hwidth : Mnemonic.cmp.format.width = 3 := rfl
    obtain ⟨a, ha⟩ := exists_fetch_eq_outOfBounds (k := .cmp) hop (by omega)
    rw [stepWith_running hs, ha, orRaise_error]
    exact ⟨raisesKind_raise s _, fun t => equal_of_raise⟩

end Sys2Proof.Machine
end

section
/-! A state that is its own next state (spec/40_execution_loop.md R89): the run from it never ends. -/

namespace Sys2Proof.Machine

theorem after_succ_of_next {m : OpcodeMap} {s t : State} (h : stepWith m s = .next t) (k : Nat) :
    after m (k + 1) s = after m k t := by
  rw [after, h]

theorem after_of_next_self {m : OpcodeMap} {s : State} (h : stepWith m s = .next s) (k : Nat) :
    after m k s = some s := by
  induction k with
  | zero => rfl
  | succ k ih => rw [after_succ_of_next h, ih]

theorem hangs_of_next_self {m : OpcodeMap} {s : State} (hs : s.state = .running) (h : stepWith m s = .next s) :
    Hangs m s :=
  fun k => ⟨s, after_of_next_self h k, hs⟩

end Sys2Proof.Machine
end

section
/-! JMP (spec/45_branch.md R151). -/

namespace Sys2Proof.Machine

theorem exec_jmp (a : Byte) (s : State) : exec (.jmp a) s = jumpTo a s :=
  rfl

theorem exec_jmp_regByte (r : Fin 8) (s : State) :
    exec (.jmp (regByte r)) s = .next { s with pc := s.x[r].toNat } := by
  rw [exec_jmp, jumpTo_regByte]
  rfl

theorem raisesKind_jumpTo_of_ge (s : State) {a : Byte} (ha : 8 ≤ a.toNat) : RaisesKind .outOfBounds (jumpTo a s) :=
  raisesKind_withReg_of_ge s ha _

theorem fetch_jmp {m : OpcodeMap} {s : State} (hpc : s.pc + 1 < 256) (hop : s.mem.get s.pc = m.jmp) :
    fetch m s = .ok (.jmp (s.mem.get (s.pc + 1))) :=
  fetch_of_encode_eq_pair hpc (by rw [hop]; rfl)

/-- Settles O18: the step changes pc alone, so a jump to its own address gives the same state again, without end. -/
theorem jmpRule : Obligations.JmpRule := by
  refine ⟨fun m a => ?decodes, fun s r => exec_jmp_regByte r s, fun m s r hs hpc hop ha => ?steps,
    fun s a ha => raisesKind_jumpTo_of_ge s ha, fun m s hs hop hpc => ?top⟩
  case decodes => exact decode_eq_ok_iff_encode_append.mpr rfl
  case steps =>
    have hstep : stepWith m s = .next { s with pc := s.x[r].toNat } := by
      rw [stepWith_of_fetch hs (fetch_jmp hpc hop), ha, exec_jmp_regByte]
    refine ⟨hstep, fun hself => hangs_of_next_self hs ?_⟩
    rw [hstep, hself]
  case top =>
    have hwidth : Mnemonic.jmp.format.width = 2 := rfl
    exact raisesKind_stepWith_of_cutOff (k := .jmp) hs hop (by omega)

end Sys2Proof.Machine
end

section
/-! The fatal conditions (spec/60_exceptions.md): CheckReg, which condition an instruction and a step can raise, and that
Faulted is final. -/

namespace Sys2Proof.Machine

theorem checkReg_of_lt {a : Byte} (h : a.toNat < 8) : checkReg a = .ok ⟨a.toNat, h⟩ :=
  dif_pos h

/-- Settles O9: the two branches of the check. -/
theorem checkRegAcceptsExactlyEight : Obligations.CheckRegAcceptsExactlyEight :=
  fun _ => ⟨fun ha => ⟨_, checkReg_of_lt ha, rfl⟩, checkReg_of_ge⟩

/-- An instruction can only fault on a register index: the stack accesses of PUSH and POP are in range, and MUL is the
operation the ALU supports. -/
theorem Effect.kind_of_faulted {s t : State} {i : Instr} {f : FaultRecord} (h : Effect s i t)
    (hs : ∀ g, s.state ≠ .faulted g) (hf : t.state = .faulted f) : f.kind = .outOfBounds := by
  rcases h.state_cases with ⟨-, ht⟩ | ⟨-, ht | ⟨a, -, ht⟩⟩
  · cases ht.symm.trans hf
  · exact absurd (ht.symm.trans hf) (hs f)
  · cases ht.symm.trans hf
    rfl

theorem kind_of_fetch_error {m : OpcodeMap} {s : State} {r : Raise} (h : fetch m s = .error r) :
    r.kind = .outOfBounds ∨ (r.kind = .unknownInstruction ∧ s.pc < 256 ∧ m.lookup (s.mem.get s.pc) = none) := by
  rcases fetch_error h with ⟨j, -, -, -, rfl⟩ | ⟨hpc, hk, rfl⟩
  · exact .inl rfl
  · exact .inr ⟨rfl, hpc, hk⟩

/-- The two conditions a step can raise, and what an UnknownInstruction says of the opcode byte. -/
theorem kind_of_stepWith_faulted {m : OpcodeMap} {s t : State} {f : FaultRecord} (h : stepWith m s = .next t)
    (hf : t.state = .faulted f) :
    f.kind = .outOfBounds ∨ (f.kind = .unknownInstruction ∧ s.pc < 256 ∧ m.lookup (s.mem.get s.pc) = none) := by
  obtain ⟨hs, ⟨i, -, he⟩ | ⟨r, hr, rfl⟩⟩ := stepWith_cases h
  · exact .inl (he.kind_of_faulted (by simp [hs]) hf)
  · cases hf
    exact kind_of_fetch_error hr

/-- Settles O34: a step and an instruction raise OutOfBounds or UnknownInstruction, never a third kind. -/
theorem unsupportedAluNeverRaised : Obligations.UnsupportedAluNeverRaised := by
  refine ⟨?step, ?instruction⟩
  case step =>
    rintro m s ⟨t, f, ht, hf, hkind⟩
    rcases kind_of_stepWith_faulted ht hf with h | ⟨h, -⟩
    · cases h.symm.trans hkind
    · cases h.symm.trans hkind
  case instruction =>
    rintro i s hs ⟨t, f, ht, hf, hkind⟩
    cases ((exec_effect ht).kind_of_faulted hs hf).symm.trans hkind

theorem raisesKind_unknownInstruction_iff {m : OpcodeMap} {s : State} (hs : s.state = .running) :
    RaisesKind .unknownInstruction (stepWith m s) ↔ s.pc < 256 ∧ m.lookup (s.mem.get s.pc) = none := by
  constructor
  · rintro ⟨t, f, ht, hf, hkind⟩
    rcases kind_of_stepWith_faulted ht hf with h | ⟨-, h⟩
    · cases h.symm.trans hkind
    · exact h
  · rintro ⟨hpc, hk⟩
    rw [stepWith_of_lookup_none hs hpc hk]
    exact raisesKind_raise s _

theorem stepWith_ne_next_of_not_running {m : OpcodeMap} {s : State} (hs : s.state ≠ .running) (t : State) :
    stepWith m s ≠ .next t :=
  fun h => hs (stepWith_cases h).1

/-- Settles O8: a byte outside the ten is a failed lookup, which the fetch raises before it reads an operand; the state it
gives is Faulted, from which no step is enabled. -/
theorem unknownOpcodeRaises : Obligations.UnknownOpcodeRaises := by
  refine fun m s hs => ⟨?raises, fun hpc hop t u ht => ?final⟩
  case raises => rw [raisesKind_unknownInstruction_iff hs, OpcodeMap.lookup_eq_none_iff]
  case final =>
    rw [stepWith_of_lookup_none hs hpc (OpcodeMap.lookup_eq_none_iff.mpr hop)] at ht
    cases ht
    exact stepWith_ne_next_of_not_running RunState.noConfusion u

end Sys2Proof.Machine
end

section
/-! A fault is precise (spec/60_exceptions.md R166, R169): the state a raising step leaves, and what it raised. -/

namespace Sys2Proof.Machine

/-- An instruction that faults was stopped by CheckReg, with no other effect. -/
theorem Effect.eq_of_faulted {s t : State} {i : Instr} {f : FaultRecord} (h : Effect s i t)
    (hs : ∀ g, s.state ≠ .faulted g) (hf : t.state = .faulted f) :
    t = s.setState (.faulted f) ∧ ∃ a : Byte, 8 ≤ a.toNat ∧ f = (Raise.outOfBoundsRegister a).record s.pc := by
  cases h with
  | badRegister i a ha hi => cases hf; exact ⟨rfl, a, ha, rfl⟩
  | hlt => cases hf
  | _ => exact absurd hf (hs f)

/-- A step that faults was stopped by its fetch or by CheckReg, with no other effect. -/
theorem stepWith_eq_of_faulted {m : OpcodeMap} {s t : State} {f : FaultRecord} (h : stepWith m s = .next t)
    (hf : t.state = .faulted f) :
    t = s.setState (.faulted f) ∧ ∃ r : Raise, f = r.record s.pc ∧
      (fetch m s = .error r ∨ ∃ a : Byte, 8 ≤ a.toNat ∧ r = .outOfBoundsRegister a) := by
  obtain ⟨hs, ⟨i, -, he⟩ | ⟨r, hr, rfl⟩⟩ := stepWith_cases h
  · obtain ⟨ht, a, ha, hrec⟩ := he.eq_of_faulted (by simp [hs]) hf
    exact ⟨ht, _, hrec, .inr ⟨a, ha, rfl⟩⟩
  · cases hf
    exact ⟨rfl, r, rfl, .inl hr⟩

/-- Settles O33: the state and the record of `stepWith_eq_of_faulted`. -/
theorem faultIsPrecise : Obligations.FaultIsPrecise := by
  intro m s t f h hf
  obtain ⟨ht, r, rfl, -⟩ := stepWith_eq_of_faulted h hf
  exact ⟨ht, rfl⟩

end Sys2Proof.Machine
end

section
/-! Where pc goes (spec/10_state.md R25, spec/40_execution_loop.md R86): past the instruction, to a jump's register, or
nowhere on a fault. -/

namespace Sys2Proof.Machine

/-- In the state `s` the instruction `i` jumps to the value of the register `r`. -/
def JumpsTo (s : State) (i : Instr) (r : Fin 8) : Prop :=
  i = .jmp (regByte r) ∨ (i = .jeq (regByte r) ∧ s.equal = true) ∨ (i = .jne (regByte r) ∧ s.equal = false)

theorem Effect.pc_cases {s t : State} {i : Instr} (h : Effect s i t) :
    t.pc = s.pc + i.width ∨ (∃ r, JumpsTo s i r ∧ t.pc = (s.readReg r).toNat) ∨
      (t.pc = s.pc ∧ ∃ f, t.state = .faulted f) := by
  cases h with
  | jmp r => exact .inr (.inl ⟨r, .inl rfl, rfl⟩)
  | jeqTaken r he => exact .inr (.inl ⟨r, .inr (.inl ⟨rfl, he⟩), rfl⟩)
  | jneTaken r he => exact .inr (.inl ⟨r, .inr (.inr ⟨rfl, he⟩), rfl⟩)
  | badRegister i a ha hi => exact .inr (.inr ⟨rfl, _, rfl⟩)
  | _ => exact .inl rfl

/-- Settles O31: a step that does not fault has fetched an instruction, whose effect moves pc in one of the first two ways
of `Effect.pc_cases`. -/
theorem pcMovesByWidthOrJump : Obligations.PcMovesByWidthOrJump := by
  intro m s t h hnf
  obtain ⟨-, ⟨i, hi, he⟩ | ⟨r, -, rfl⟩⟩ := stepWith_cases h
  · refine ⟨i, hi, ?_⟩
    rcases he.pc_cases with hw | hj | ⟨-, f, hf⟩
    · exact .inl hw
    · exact .inr hj
    · exact absurd hf (hnf f)
  · exact absurd rfl (hnf _)

end Sys2Proof.Machine
end

section
/-! The invariant (spec/10_state.md R25, spec/60_exceptions.md R165, R166): memory in canonical form, pc in 0..256 and a
coherent fault record, each kept by every step. -/

namespace Sys2Proof.Machine

theorem Effect.mem_of_ne_push {s t : State} {i : Instr} (h : Effect s i t) (hi : i.mnemonic ≠ .push) :
    t.mem = s.mem := by
  cases h with
  | push r => exact absurd rfl hi
  | _ => rfl

theorem Effect.wf_mem {s t : State} {i : Instr} (h : Effect s i t) (hs : s.mem.wf = true) : t.mem.wf = true := by
  cases h with
  | push r => exact Memory.wf_set hs s.decSp.spAddr_lt _
  | _ => exact hs

theorem stepWith_wf_mem {m : OpcodeMap} {s t : State} (h : stepWith m s = .next t) (hs : s.mem.wf = true) :
    t.mem.wf = true := by
  obtain ⟨-, ⟨i, -, he⟩ | ⟨r, -, rfl⟩⟩ := stepWith_cases h
  · exact he.wf_mem hs
  · exact hs

/-- The fetched instruction ends at 256 at the latest, and a register's value is below 256. -/
theorem stepWith_pc_le {m : OpcodeMap} {s t : State} (h : stepWith m s = .next t) (hs : s.pc ≤ 256) : t.pc ≤ 256 := by
  obtain ⟨-, ⟨i, hi, he⟩ | ⟨r, -, rfl⟩⟩ := stepWith_cases h
  · rcases he.pc_cases with hw | ⟨r, -, hr⟩ | ⟨hpc, -⟩
    · exact hw ▸ fetch_ok_width hi
    · exact hr ▸ (s.readReg r).isLt.le
    · exact hpc ▸ hs
  · exact hs

theorem coherent_record_outOfBoundsAddress_iff {m : OpcodeMap} {a pc : Nat} :
    ((Raise.outOfBoundsAddress a).record pc).coherent m ↔ a = 256 :=
  Iff.rfl

theorem coherent_record_outOfBoundsRegister_iff {m : OpcodeMap} {a : Byte} {pc : Nat} :
    ((Raise.outOfBoundsRegister a).record pc).coherent m ↔ 8 ≤ a.toNat :=
  Iff.rfl

theorem coherent_record_unknownInstruction_iff {m : OpcodeMap} {op : Byte} {pc : Nat} :
    ((Raise.unknownInstruction op).record pc).coherent m ↔ m.lookup op = none :=
  Iff.rfl

/-- With pc in 0..256 the first address past memory that a fetch reaches is 256. -/
theorem coherent_of_fetch_error {m : OpcodeMap} {s : State} {r : Raise} (h : fetch m s = .error r) (hs : s.pc ≤ 256) :
    (r.record s.pc).coherent m := by
  rcases fetch_error h with ⟨j, -, hge, hj, rfl⟩ | ⟨-, hk, rfl⟩
  · rw [coherent_record_outOfBoundsAddress_iff]
    omega
  · exact coherent_record_unknownInstruction_iff.mpr hk

theorem stepWith_pc_and_coherent_of_faulted {m : OpcodeMap} {s t : State} {f : FaultRecord}
    (h : stepWith m s = .next t) (hs : s.pc ≤ 256) (hf : t.state = .faulted f) : f.pc = t.pc ∧ f.coherent m := by
  obtain ⟨rfl, r, rfl, hr | ⟨a, ha, rfl⟩⟩ := stepWith_eq_of_faulted h hf
  · exact ⟨rfl, coherent_of_fetch_error hr hs⟩
  · exact ⟨rfl, coherent_record_outOfBoundsRegister_iff.mpr ha⟩

theorem stepWith_keeps_inv {m : OpcodeMap} {s t : State} (hs : s.Inv m) (h : stepWith m s = .next t) : t.Inv m := by
  obtain ⟨hmem, hpc, -⟩ := hs
  exact ⟨stepWith_wf_mem h hmem, stepWith_pc_le h hpc, fun f => stepWith_pc_and_coherent_of_faulted h hpc⟩

/-- Settles O36: each of the invariant's three parts is kept, the record's by way of pc's bound. -/
theorem stepKeepsInvariant : Obligations.StepKeepsInvariant :=
  ⟨fun _ _ => stepWith_keeps_inv, fun _ _ _ => stepWith_keeps_inv⟩

theorem resetWith_inv (m : OpcodeMap) (image : List Byte) (spInit : Byte) : (State.resetWith image spInit).Inv m :=
  ⟨Memory.wf_ofImage image, Nat.zero_le _, fun _ hf => RunState.noConfusion hf⟩

/-- Settles O37: `State.reset` is the reset state of the empty image. -/
theorem resetMeetsInvariant : Obligations.ResetMeetsInvariant :=
  ⟨resetWith_inv defaultOpcodes [] Config.spInit, rfl, resetWith_inv⟩

end Sys2Proof.Machine
end

section
/-! The checks of the fetch in their order (spec/60_exceptions.md R167): the opcode's address, the opcode, the operand bytes
in ascending order. The first that fails is the one raised. -/

namespace Sys2Proof

theorem decodeFrom_of_error {ε : Type} {m : OpcodeMap} {unknown : Byte → ε} {read : Nat → Except ε Byte} {e : ε}
    (h0 : read 0 = .error e) : decodeFrom m unknown read = .error e := by
  simp [decodeFrom, h0]

/-- A format with an operand reads the byte after the opcode first. -/
theorem readOperands_of_error_one {ε : Type} {read : Nat → Except ε Byte} {k : Mnemonic} {e : ε} (hk : k.format ≠ .n)
    (h1 : read 1 = .error e) : readOperands read k = .error e := by
  cases k with
  | hlt => exact absurd rfl hk
  | ldi | mul | cmp => simp [readOperands, readTwo, h1]
  | _ => simp [readOperands, readOne, h1]

/-- A format with two operands then reads the second byte. -/
theorem readOperands_of_error_two {ε : Type} {read : Nat → Except ε Byte} {k : Mnemonic} {a : Byte} {e : ε}
    (hk : k.format = .rr ∨ k.format = .ri) (h1 : read 1 = .ok a) (h2 : read 2 = .error e) :
    readOperands read k = .error e := by
  cases k with
  | ldi | mul | cmp => simp [readOperands, readTwo, h1, h2]
  | _ => simp [Mnemonic.format] at hk

end Sys2Proof

namespace Sys2Proof.Machine

theorem fetch_of_pc_ge {m : OpcodeMap} {s : State} (hpc : 256 ≤ s.pc) :
    fetch m s = .error (.outOfBoundsAddress s.pc) :=
  decodeFrom_of_error (memRead_of_ge hpc)

theorem fetch_of_lookup {m : OpcodeMap} {s : State} {k : Mnemonic} (hpc : s.pc < 256)
    (hk : m.lookup (s.mem.get s.pc) = some k) :
    fetch m s = readOperands (fun j => memRead s.mem (s.pc + j)) k :=
  decodeFrom_of_lookup (memRead_of_lt hpc) hk

theorem fetch_of_first_operand_ge {m : OpcodeMap} {s : State} {k : Mnemonic} (hpc : s.pc < 256)
    (hk : m.lookup (s.mem.get s.pc) = some k) (hf : k.format ≠ .n) (h1 : 256 ≤ s.pc + 1) :
    fetch m s = .error (.outOfBoundsAddress (s.pc + 1)) := by
  rw [fetch_of_lookup hpc hk]
  exact readOperands_of_error_one hf (memRead_of_ge h1)

theorem fetch_of_second_operand_ge {m : OpcodeMap} {s : State} {k : Mnemonic} (hpc : s.pc + 1 < 256)
    (hk : m.lookup (s.mem.get s.pc) = some k) (hf : k.format = .rr ∨ k.format = .ri) (h2 : 256 ≤ s.pc + 2) :
    fetch m s = .error (.outOfBoundsAddress (s.pc + 2)) := by
  rw [fetch_of_lookup (by omega) hk]
  exact readOperands_of_error_two hf (memRead_of_lt hpc) (memRead_of_ge h2)

theorem raise_outOfBoundsAddress (s : State) (a : Nat) :
    raise s (.outOfBoundsAddress a) = .next { s with state := .faulted ⟨.outOfBounds, s.pc, some (.address a)⟩ } :=
  rfl

theorem raise_outOfBoundsRegister (s : State) (a : Byte) :
    raise s (.outOfBoundsRegister a) = .next { s with state := .faulted ⟨.outOfBounds, s.pc, some (.register a)⟩ } :=
  rfl

theorem raise_unknownInstruction (s : State) (op : Byte) :
    raise s (.unknownInstruction op) =
      .next { s with state := .faulted ⟨.unknownInstruction, s.pc, some (.opcode op)⟩ } :=
  rfl

theorem stepWith_of_fetch_error {m : OpcodeMap} {s : State} {r : Raise} (hs : s.state = .running)
    (hr : fetch m s = .error r) : stepWith m s = raise s r := by
  rw [stepWith_running hs, hr, orRaise_error]

/-- Settles O7: the four fetches that fail, each raising its own check. -/
theorem fetchRaisesInOrder : Obligations.FetchRaisesInOrder := by
  refine fun m s hs => ⟨fun hpc => ?address, fun hpc hop => ?opcode, fun k hpc hk hf h1 => ?first,
    fun k hpc hk hf h2 => ?second⟩
  case address => rw [stepWith_of_fetch_error hs (fetch_of_pc_ge hpc), raise_outOfBoundsAddress]
  case opcode =>
    rw [stepWith_of_lookup_none hs hpc (OpcodeMap.lookup_eq_none_iff.mpr hop), raise_unknownInstruction]
  case first => rw [stepWith_of_fetch_error hs (fetch_of_first_operand_ge hpc hk hf h1), raise_outOfBoundsAddress]
  case second => rw [stepWith_of_fetch_error hs (fetch_of_second_operand_ge hpc hk hf h2), raise_outOfBoundsAddress]

end Sys2Proof.Machine
end

section
/-! What a step runs (spec/40_execution_loop.md R84, R85): the instruction whose bytes lie at pc, and nothing outside
Running. -/

namespace Sys2Proof.Machine

/-- Settles O4: the decoder runs on each of the seven words. -/
theorem specWordsDecode : Obligations.SpecWordsDecode :=
  ⟨rfl, rfl, rfl, rfl, rfl, rfl, rfl⟩

/-- Memory supplies an encoding that fits below 256 where its cells hold the encoding's bytes. -/
theorem fetch_of_mem_eq_encode {m : OpcodeMap} {s : State} {i : Instr} (hw : s.pc + i.width ≤ 256)
    (hmem : ∀ k v, (encode m i)[k]? = some v → s.mem.get (s.pc + k) = v) : fetch m s = .ok i := by
  refine fetch_eq_ok_iff.mpr fun k v hk => memRead_eq_ok_iff.mpr ⟨?_, (hmem k v hk).symm⟩
  obtain ⟨hlt, -⟩ := List.getElem?_eq_some_iff.mp hk
  rw [length_encode] at hlt
  omega

/-- Settles O5: the loop adds nothing to the fetched instruction's meaning. -/
theorem stepRunsDecodedInstruction : Obligations.StepRunsDecodedInstruction :=
  ⟨fun _ _ _ => stepWith_of_fetch, fun _ _ _ => fetch_of_mem_eq_encode, fun _ => rfl⟩

/-- Settles O6: each run state but Running has its own answer. -/
theorem noStepOutsideRunning : Obligations.NoStepOutsideRunning := by
  refine fun m s => ⟨fun hs => ?_, fun hs => ?_, fun f hs => ?_, fun t h => (stepWith_cases h).1⟩
  all_goals rw [stepWith, hs]

theorem exec_hlt (s : State) : exec .hlt s = .next { s with state := .halted, pc := s.pc + 1 } :=
  rfl

theorem fetch_hlt {m : OpcodeMap} {s : State} (hpc : s.pc < 256) (hop : s.mem.get s.pc = m.hlt) :
    fetch m s = .ok .hlt := by
  simp [fetch_eq_ok_iff, encode, memRead_eq_ok_iff, hop, hpc]

/-- Settles O13: HLT is one byte, so it is fetched at address 255 too. -/
theorem hltRule : Obligations.HltRule := by
  refine ⟨exec_hlt, fun m s hs hpc hop => ?_⟩
  rw [stepWith_of_fetch hs (fetch_hlt hpc hop), exec_hlt]

end Sys2Proof.Machine
end

section
/-! The registers around a stack access (spec/44_stack.md R140 to R142): what each of the updates that PUSH and POP make
gives, in the form of the spec's rules. -/

namespace Sys2Proof.Machine

theorem State.readReg_decSp (s : State) (r : Fin 8) :
    s.decSp.readReg r = if r = 7 then s.x[7] - 1 else s.x[r] := by
  split
  · next h => rw [h]; exact State.readReg_decSp_sp s
  · next h => exact State.readReg_decSp_other s h

theorem State.spAddr_decSp (s : State) : s.decSp.spAddr = (s.x[7] - 1).toNat := by
  rw [State.spAddr, State.readReg_decSp_sp]
  rfl

theorem State.decSp_eq (s : State) : s.decSp = { s with x := s.x.set 7 (s.x[7] - 1) } := by
  rw [State.decSp, State.writeReg, wrap8_dec]
  rfl

theorem State.incSp_eq (s : State) : s.incSp = { s with x := s.x.set 7 (s.x[7] + 1) } := by
  rw [State.incSp, State.writeReg, wrap8_inc]
  rfl

theorem State.writeReg_byte (s : State) (r : Fin 8) (v : Byte) :
    s.writeReg r v.toNat = { s with x := s.x.set r.val v r.isLt } := by
  rw [State.writeReg, wrap8_toNat]

end Sys2Proof.Machine
end

section
/-! PUSH (spec/44_stack.md R141). -/

namespace Sys2Proof.Machine

theorem exec_push (a : Byte) (s : State) : exec (.push a) s = execPush a s :=
  rfl

theorem exec_push_regByte (r : Fin 8) (s : State) :
    exec (.push (regByte r)) s = .next { s with
      x := s.x.set 7 (s.x[7] - 1)
      mem := s.mem.set s.decSp.spAddr (s.decSp.readReg r)
      pc := s.pc + 2 } := by
  rw [exec_push, execPush_regByte, State.setMem, State.decSp_eq]
  rfl

/-- What the cells hold after PUSH: the operand register, read after the decrement, at the new SP. -/
theorem get_mem_push {s : State} (hs : s.mem.wf = true) (r : Fin 8) (a : Nat) :
    (s.mem.set s.decSp.spAddr (s.decSp.readReg r)).get a =
      if a = (s.x[7] - 1).toNat then (if r = 7 then s.x[7] - 1 else s.x[r]) else s.mem.get a := by
  rw [← State.readReg_decSp, ← State.spAddr_decSp]
  exact Memory.get_set_sortedFrom hs _ _ _

/-- Settles O16: the memory is the one with the cell at the decremented SP written; a bad index fails CheckReg, and at 255
memory ends before the operand byte. -/
theorem pushRule : Obligations.PushRule := by
  refine ⟨fun s r hs => ?completes, fun s a ha => raisesKind_withReg_of_ge s ha _, fun m s hs hop hpc => ?top⟩
  case completes => exact ⟨_, exec_push_regByte r s, Memory.wf_set hs s.decSp.spAddr_lt _, get_mem_push hs r⟩
  case top =>
    have hwidth : Mnemonic.push.format.width = 2 := rfl
    exact raisesKind_stepWith_of_cutOff (k := .push) hs hop (by omega)

end Sys2Proof.Machine
end

section
/-! POP (spec/44_stack.md R142). -/

namespace Sys2Proof.Machine

theorem exec_pop (a : Byte) (s : State) : exec (.pop a) s = execPop a s :=
  rfl

theorem exec_pop_regByte_of_ne_sp {r : Fin 8} (hr : r ≠ 7) (s : State) :
    exec (.pop (regByte r)) s = .next { s with
      x := (s.x.set r.val (s.mem.get s.x[7].toNat) r.isLt).set 7 (s.x[7] + 1)
      pc := s.pc + 2 } := by
  have hv : r.val ≠ 7 := fun e => hr (Fin.ext e)
  rw [exec_pop, execPop_regByte, State.incSp_eq, State.writeReg_byte]
  simp only [Vector.getElem_set_ne r.isLt (by decide : 7 < 8) hv]
  rfl

/-- The byte popped into SP is itself incremented. -/
theorem exec_pop_regByte_sp (s : State) :
    exec (.pop (regByte 7)) s =
      .next { s with x := s.x.set 7 (s.mem.get s.x[7].toNat + 1), pc := s.pc + 2 } := by
  rw [exec_pop, execPop_regByte, State.incSp_eq, State.writeReg_byte]
  simp only [Fin.coe_ofNat_eq_mod, Nat.mod_succ, Vector.getElem_set_self, Vector.set_set]
  rfl

/-- Settles O17: POP R7 writes SP twice, any other register apart from SP; a bad index fails CheckReg, and at 255 memory
ends before the operand byte. -/
theorem popRule : Obligations.PopRule := by
  refine ⟨fun s r hr => exec_pop_regByte_of_ne_sp hr s, exec_pop_regByte_sp,
    fun s a ha => raisesKind_withReg_of_ge s ha _, fun m s hs hop hpc => ?top⟩
  case top =>
    have hwidth : Mnemonic.pop.format.width = 2 := rfl
    exact raisesKind_stepWith_of_cutOff (k := .pop) hs hop (by omega)

end Sys2Proof.Machine
end

section
/-! JEQ and JNE (spec/45_branch.md R152, R153): taken, each is the jump of JMP; not taken, the operand byte has no
effect. -/

namespace Sys2Proof.Machine

theorem exec_jeq_of_equal (a : Byte) {s : State} (he : s.equal = true) : exec (.jeq a) s = jumpTo a s :=
  if_pos he

theorem exec_jeq_of_not_equal (a : Byte) {s : State} (he : s.equal = false) :
    exec (.jeq a) s = .next { s with pc := s.pc + 2 } :=
  if_neg (by simp [he])

theorem exec_jne_of_not_equal (a : Byte) {s : State} (he : s.equal = false) : exec (.jne a) s = jumpTo a s :=
  if_neg (by simp [he])

theorem exec_jne_of_equal (a : Byte) {s : State} (he : s.equal = true) :
    exec (.jne a) s = .next { s with pc := s.pc + 2 } :=
  if_pos he

/-- Settles O19: the two branches on EQ; the operand byte is read before, so both fault at 255. -/
theorem jeqRule : Obligations.JeqRule := by
  refine ⟨fun s r he => ?taken, fun s a he => exec_jeq_of_not_equal a he, fun s a he ha => ?badIndex,
    fun m s hs hop hpc => ?top⟩
  case taken => rw [exec_jeq_of_equal _ he]; exact exec_jmp_regByte r s
  case badIndex => rw [exec_jeq_of_equal _ he]; exact raisesKind_jumpTo_of_ge s ha
  case top =>
    have hwidth : Mnemonic.jeq.format.width = 2 := rfl
    exact raisesKind_stepWith_of_cutOff (k := .jeq) hs hop (by omega)

/-- Settles O20: as for JEQ, with the branches exchanged. -/
theorem jneRule : Obligations.JneRule := by
  refine ⟨fun s r he => ?taken, fun s a he => exec_jne_of_equal a he, fun s a he ha => ?badIndex,
    fun m s hs hop hpc => ?top⟩
  case taken => rw [exec_jne_of_not_equal _ he]; exact exec_jmp_regByte r s
  case badIndex => rw [exec_jne_of_not_equal _ he]; exact raisesKind_jumpTo_of_ge s ha
  case top =>
    have hwidth : Mnemonic.jne.format.width = 2 := rfl
    exact raisesKind_stepWith_of_cutOff (k := .jne) hs hop (by omega)

end Sys2Proof.Machine
end

section
/-! The record of a bad register index (spec/60_exceptions.md R163, R165, R167). -/

namespace Sys2Proof.Machine

theorem withRegs_of_first_ge (s : State) {a : Byte} (ha : 8 ≤ a.toNat) (b : Byte) (k : Fin 8 → Fin 8 → Result) :
    withRegs s a b k = raise s (.outOfBoundsRegister a) :=
  withReg_of_ge s ha _

theorem withRegs_of_second_ge (s : State) (r : Fin 8) {b : Byte} (hb : 8 ≤ b.toNat) (k : Fin 8 → Fin 8 → Result) :
    withRegs s (regByte r) b k = raise s (.outOfBoundsRegister b) := by
  rw [withRegs, withReg_regByte, withReg_of_ge s hb]

theorem jumpTo_of_ge (s : State) {a : Byte} (ha : 8 ≤ a.toNat) : jumpTo a s = raise s (.outOfBoundsRegister a) :=
  withReg_of_ge s ha _

/-- Settles O22: every one of these instructions is one or two checked registers before anything else, JEQ and JNE on
their taken branch. -/
theorem badRegisterIndexRecord : Obligations.BadRegisterIndexRecord := by
  refine ⟨fun s a b i ha hi => ?first, fun s r b i hb hi => ?second⟩
  case first =>
    rw [← raise_outOfBoundsRegister]
    rcases hi with rfl | rfl | rfl | rfl | rfl | rfl | rfl | ⟨rfl, he⟩ | ⟨rfl, he⟩
    · exact withReg_of_ge s ha _
    · exact withReg_of_ge s ha _
    · exact withRegs_of_first_ge s ha b _
    · exact withReg_of_ge s ha _
    · exact withReg_of_ge s ha _
    · exact withRegs_of_first_ge s ha b _
    · exact jumpTo_of_ge s ha
    · rw [exec_jeq_of_equal a he, jumpTo_of_ge s ha]
    · rw [exec_jne_of_not_equal a he, jumpTo_of_ge s ha]
  case second =>
    rw [← raise_outOfBoundsRegister]
    rcases hi with rfl | rfl
    · exact withRegs_of_second_ge s r hb _
    · exact withRegs_of_second_ge s r hb _

end Sys2Proof.Machine
end

section
/-! Frames: what a next state leaves unchanged, on operands that name registers and on operands that raise. -/

namespace Sys2Proof.Machine

/-- The registers that an instruction can write, by its operand bytes; `Effect.readReg_of_not_mayWriteReg` ties this to
its meaning. -/
def MayWriteReg : Instr → Fin 8 → Prop
  | .ldi a _, r => regByte r = a
  | .mul a _, r => regByte r = a
  | .push _, r => r = sp
  | .pop a, r => r = sp ∨ regByte r = a
  | .prn _, _ => False
  | .hlt, _ => False
  | .cmp _ _, _ => False
  | .jmp _, _ => False
  | .jeq _, _ => False
  | .jne _, _ => False

theorem Effect.readReg_of_not_mayWriteReg {s t : State} {i : Instr} {r : Fin 8} (h : Effect s i t)
    (hr : ¬ MayWriteReg i r) : t.readReg r = s.readReg r := by
  cases h with
  | ldi q b => exact State.readReg_writeReg_other s q r _ fun e => hr (congrArg regByte e)
  | mul q p => exact State.readReg_writeReg_other s q r _ fun e => hr (congrArg regByte e)
  | push q => exact State.readReg_decSp_other s hr
  | pop q =>
    obtain ⟨hsp, hq⟩ := not_or.mp hr
    rw [State.readReg_advance, State.readReg_incSp_other _ hsp]
    exact State.readReg_writeReg_other s q r _ fun e => hq (congrArg regByte e)
  | _ => rfl

theorem State.x_eq_of_readReg {s t : State} (h : ∀ r, t.readReg r = s.readReg r) : t.x = s.x :=
  Vector.ext fun k hk => h ⟨k, hk⟩

theorem Effect.state_of_ne_hlt {s t : State} {i : Instr} (h : Effect s i t) (hi : i.mnemonic ≠ .hlt) :
    t.state = s.state ∨ ∃ f, t.state = .faulted f := by
  rcases h.state_cases with ⟨rfl, -⟩ | ⟨-, ht | ⟨a, -, ht⟩⟩
  · exact absurd rfl hi
  · exact .inl ht
  · exact .inr ⟨_, ht⟩

/-- The one cell that an instruction can change is the one at the decremented SP. -/
theorem Effect.get_mem_of_ne_spAddr {s t : State} {i : Instr} {addr : Nat} (h : Effect s i t) (hs : s.mem.wf = true)
    (ha : addr ≠ s.decSp.spAddr) : t.mem.get addr = s.mem.get addr := by
  cases h with
  | push r => exact Memory.get_set_other hs ha _
  | _ => rfl

/-- What the instructions have in common that can change registers and pc only. -/
theorem Effect.frame_of_mnemonic_not_mem {s t : State} {i : Instr} (h : Effect s i t)
    (hi : i.mnemonic ∉ [Mnemonic.cmp, .prn, .push, .hlt]) :
    t.equal = s.equal ∧ t.out = s.out ∧ (∀ addr, t.mem.get addr = s.mem.get addr) ∧
      (t.state = s.state ∨ ∃ f, t.state = .faulted f) := by
  simp only [List.mem_cons, List.not_mem_nil, or_false, not_or] at hi
  obtain ⟨hcmp, hprn, hpush, hhlt⟩ := hi
  exact ⟨h.equal_of_ne_cmp hcmp, h.out_of_ne_prn hprn, fun addr => by rw [h.mem_of_ne_push hpush],
    h.state_of_ne_hlt hhlt⟩

theorem not_mayWriteReg_of_mnemonic_mem {i : Instr}
    (hi : i.mnemonic ∈ [Mnemonic.prn, .hlt, .cmp, .jmp, .jeq, .jne]) (r : Fin 8) : ¬ MayWriteReg i r := by
  cases i with
  | ldi | mul | push | pop => simp [Instr.mnemonic] at hi
  | _ => exact id

/-- Settles O23: both write only the register that `a` names. -/
theorem registerWriteFrame : Obligations.RegisterWriteFrame := by
  rintro s t a b (h | h)
  · have he := exec_effect h
    exact ⟨fun r hr => he.readReg_of_not_mayWriteReg hr, he.frame_of_mnemonic_not_mem (by simp [Instr.mnemonic])⟩
  · have he := exec_effect h
    exact ⟨fun r hr => he.readReg_of_not_mayWriteReg hr, he.frame_of_mnemonic_not_mem (by simp [Instr.mnemonic])⟩

/-- Settles O24: these write no register, and each other part of the state has its own rule. -/
theorem noRegisterWriteFrame : Obligations.NoRegisterWriteFrame := by
  intro s t i hi h
  have he := exec_effect h
  have hpush : i.mnemonic ≠ .push := by
    intro hk
    simp [hk] at hi
  exact ⟨State.x_eq_of_readReg fun r => he.readReg_of_not_mayWriteReg (not_mayWriteReg_of_mnemonic_mem hi r),
    fun addr => by rw [he.mem_of_ne_push hpush], he.equal_of_ne_cmp, he.out_of_ne_prn, he.state_of_ne_hlt⟩

/-- Settles O25: PUSH writes SP and the cell at the decremented SP. -/
theorem pushFrame : Obligations.PushFrame := by
  intro s t a hs h
  have he := exec_effect h
  exact ⟨fun r hr => he.readReg_of_not_mayWriteReg hr, he.equal_of_ne_cmp Mnemonic.noConfusion,
    he.out_of_ne_prn Mnemonic.noConfusion, fun addr ha => he.get_mem_of_ne_spAddr hs ha,
    he.state_of_ne_hlt Mnemonic.noConfusion⟩

/-- Settles O26: POP writes SP and the register that `a` names. -/
theorem popFrame : Obligations.PopFrame := by
  intro s t a h
  have he := exec_effect h
  exact ⟨fun r hsp ha => he.readReg_of_not_mayWriteReg (not_or.mpr ⟨hsp, ha⟩),
    he.frame_of_mnemonic_not_mem (by simp [Instr.mnemonic])⟩

end Sys2Proof.Machine
end

section
/-! Which instruction a step ran, from what it changed: EQ (spec/10_state.md R28), memory (spec/20_memory.md R41), the
output (spec/10_state.md R30). -/

namespace Sys2Proof

theorem Instr.exists_eq_cmp {i : Instr} (h : i.mnemonic = .cmp) : ∃ a b, i = .cmp a b := by
  cases i with
  | cmp a b => exact ⟨a, b, rfl⟩
  | _ => exact Mnemonic.noConfusion h

theorem Instr.exists_eq_push {i : Instr} (h : i.mnemonic = .push) : ∃ a, i = .push a := by
  cases i with
  | push a => exact ⟨a, rfl⟩
  | _ => exact Mnemonic.noConfusion h

end Sys2Proof

namespace Sys2Proof.Machine

/-- Settles O27: neither another instruction nor a failed fetch writes EQ. -/
theorem onlyCmpChangesEqual : Obligations.OnlyCmpChangesEqual := by
  intro m s t h hne
  obtain ⟨-, ⟨i, hi, he⟩ | ⟨r, -, rfl⟩⟩ := stepWith_cases h
  · obtain ⟨a, b, rfl⟩ := Instr.exists_eq_cmp (not_not.mp fun hk => hne (he.equal_of_ne_cmp hk))
    exact ⟨a, b, hi⟩
  · exact absurd rfl hne

/-- Settles O30: neither another instruction nor a failed fetch writes memory. -/
theorem onlyPushChangesMemory : Obligations.OnlyPushChangesMemory := by
  intro m s t h hne
  obtain ⟨-, ⟨i, hi, he⟩ | ⟨r, -, rfl⟩⟩ := stepWith_cases h
  · obtain ⟨a, rfl⟩ := Instr.exists_eq_push (not_not.mp fun hk => hne (he.mem_of_ne_push hk))
    exact ⟨a, hi⟩
  · exact absurd rfl hne

theorem Effect.out_cases {s t : State} {i : Instr} (h : Effect s i t) :
    t.out = s.out ∨ ∃ r : Fin 8, i = .prn (regByte r) ∧ t.out = s.out ++ [s.x[r]] := by
  cases h with
  | prn r => exact .inr ⟨r, rfl, rfl⟩
  | _ => exact .inl rfl

/-- Settles O29: a step emits by the effect of its instruction, which for PRN is the register's byte; a fault changes the
run state alone. -/
theorem onlyPrnAppendsOutput : Obligations.OnlyPrnAppendsOutput := by
  refine ⟨fun _ _ => rfl, fun m s t h => ?leavesOrPrn, fun m s r hs hi => ?prn, fun m s t f h hf => ?fault⟩
  case leavesOrPrn =>
    obtain ⟨-, ⟨i, hi, he⟩ | ⟨r, -, rfl⟩⟩ := stepWith_cases h
    · rcases he.out_cases with ho | ⟨r, rfl, ho⟩
      · exact .inl ho
      · exact .inr ⟨r, hi, ho⟩
    · exact .inl rfl
  case prn => exact ⟨_, (stepWith_of_fetch hs hi).trans (exec_prn_regByte r s), rfl⟩
  case fault =>
    obtain ⟨rfl, -⟩ := stepWith_eq_of_faulted h hf
    rfl

end Sys2Proof.Machine
end

section
/-! Updates of a state that an instruction cannot see: running it on the updated state gives the updated answer. Both
noninterference statements are this, for EQ and for the output. -/

namespace Sys2Proof.Machine

/-- The answer with its next state updated. -/
def mapNext (f : State → State) : Result → Result
  | .next s => .next (f s)
  | .fault r => .fault r
  | .refused r => .refused r

theorem mapNext_eq_next_iff {f : State → State} {r : Result} {t : State} :
    mapNext f r = .next t ↔ ∃ u, r = .next u ∧ f u = t := by
  cases r <;> simp [mapNext]

/-- A checked operation on two states `s` and `s'`, where the update relates what they give in a raise and after the
check. -/
theorem orRaise_mapNext {α : Type} {f : State → State} {s s' : State} (hf : ∀ r, raise s' r = mapNext f (raise s r))
    {k k' : α → Result} (hk : ∀ v, k' v = mapNext f (k v)) (c : Except Raise α) :
    orRaise s' c k' = mapNext f (orRaise s c k) := by
  cases c with
  | ok v => exact hk v
  | error r => exact hf r

theorem withReg_mapNext {f : State → State} {s s' : State} (hf : ∀ r, raise s' r = mapNext f (raise s r))
    {k k' : Fin 8 → Result} (hk : ∀ r, k' r = mapNext f (k r)) (a : Byte) :
    withReg s' a k' = mapNext f (withReg s a k) :=
  orRaise_mapNext hf hk _

theorem withRegs_mapNext {f : State → State} {s s' : State} (hf : ∀ r, raise s' r = mapNext f (raise s r))
    {k k' : Fin 8 → Fin 8 → Result} (hk : ∀ r q, k' r q = mapNext f (k r q)) (a b : Byte) :
    withRegs s' a b k' = mapNext f (withRegs s a b k) :=
  withReg_mapNext hf (fun r => withReg_mapNext hf (hk r) b) a

/-- EQ is seen by no instruction but JEQ, JNE and CMP. -/
theorem exec_setEqual {i : Instr} (hi : i.mnemonic ∉ [Mnemonic.jeq, .jne, .cmp]) (s : State) (b : Bool) :
    exec i (s.setEqual b) = mapNext (·.setEqual b) (exec i s) := by
  have hf : ∀ r, raise (s.setEqual b) r = mapNext (·.setEqual b) (raise s r) := fun _ => rfl
  cases i with
  | ldi | prn | jmp => exact withReg_mapNext hf (fun _ => by rfl) _
  | hlt => rfl
  | mul => exact withRegs_mapNext hf (fun _ _ => by rfl) _ _
  | push | pop => exact withReg_mapNext hf (fun _ => orRaise_mapNext hf (fun _ => by rfl) _) _
  | jeq | jne | cmp => simp [Instr.mnemonic] at hi

/-- Settles O28: setting EQ before or after the instruction is the same; what CMP gives has no EQ of before in it. -/
theorem onlyConditionalJumpsReadEqual : Obligations.OnlyConditionalJumpsReadEqual := by
  refine ⟨fun s t i b hi ht => ?others, fun s r q b => ?cmp⟩
  case others => exact (exec_setEqual hi s b).trans (by rw [ht]; rfl)
  case cmp => rw [exec_cmp_regByte, exec_cmp_regByte]

/-- The state with more bytes in `out` before those that are there. -/
def State.prependOut (earlier : List Byte) (s : State) : State := { s with out := earlier ++ s.out }

theorem State.prependOut_emit (earlier : List Byte) (s : State) (v : Byte) :
    (s.prependOut earlier).emit v = (s.emit v).prependOut earlier := by
  simp [State.prependOut, State.emit]

/-- Earlier output is seen by no instruction. -/
theorem exec_prependOut (earlier : List Byte) (i : Instr) (s : State) :
    exec i (s.prependOut earlier) = mapNext (·.prependOut earlier) (exec i s) := by
  have hf : ∀ r, raise (s.prependOut earlier) r = mapNext (·.prependOut earlier) (raise s r) := fun _ => rfl
  have hjump (a : Byte) : jumpTo a (s.prependOut earlier) = mapNext (·.prependOut earlier) (jumpTo a s) :=
    withReg_mapNext hf (fun _ => by rfl) a
  cases i with
  | ldi => exact withReg_mapNext hf (fun _ => by rfl) _
  | prn a =>
    refine withReg_mapNext hf (fun r => ?_) a
    rw [State.prependOut_emit]
    rfl
  | hlt => rfl
  | mul | cmp => exact withRegs_mapNext hf (fun _ _ => by rfl) _ _
  | push | pop => exact withReg_mapNext hf (fun _ => orRaise_mapNext hf (fun _ => by rfl) _) _
  | jmp a => exact hjump a
  | jeq a =>
    cases he : s.equal with
    | true => rw [exec_jeq_of_equal a he, exec_jeq_of_equal (s := s.prependOut earlier) a he, hjump]
    | false => rw [exec_jeq_of_not_equal a he, exec_jeq_of_not_equal (s := s.prependOut earlier) a he]; rfl
  | jne a =>
    cases he : s.equal with
    | true => rw [exec_jne_of_equal a he, exec_jne_of_equal (s := s.prependOut earlier) a he]; rfl
    | false => rw [exec_jne_of_not_equal a he, exec_jne_of_not_equal (s := s.prependOut earlier) a he, hjump]

theorem stepWith_prependOut {m : OpcodeMap} {s : State} (hs : s.state = .running) (earlier : List Byte) :
    stepWith m (s.prependOut earlier) = mapNext (·.prependOut earlier) (stepWith m s) := by
  have hs' : (s.prependOut earlier).state = .running := hs
  rw [stepWith_running hs, stepWith_running hs']
  exact orRaise_mapNext (fun _ => rfl) (fun i => exec_prependOut earlier i s) _

/-- Settles O40: every output is earlier output before an empty one, so the bytes added are those the step gives from an
empty output. -/
theorem outputIsWriteOnly : Obligations.OutputIsWriteOnly := by
  intro m s t h
  have hout : ∀ o, { s with out := o } = State.prependOut o { s with out := [] } := by simp [State.prependOut]
  have hstep : ∀ o, stepWith m { s with out := o } = mapNext (·.prependOut o) (stepWith m { s with out := [] }) := by
    intro o
    rw [hout o]
    exact stepWith_prependOut (s := { s with out := [] }) (stepWith_cases h).1 o
  obtain ⟨u, hu, rfl⟩ := mapNext_eq_next_iff.mp ((hstep s.out).symm.trans h)
  exact ⟨u.out, rfl, fun earlier => by rw [hstep, hu]; rfl⟩

end Sys2Proof.Machine
end

section
/-! The reset state (spec/10_state.md R35): what a memory reads as after bytes were placed in it. -/

namespace Sys2Proof.Machine

theorem Memory.get_place_of_lt {mem : Memory} (hm : mem.wf = true) {a b : Nat} (hb : b < a) (bytes : List Byte) :
    (mem.place a bytes).get b = mem.get b := by
  induction bytes generalizing mem a with
  | nil => rfl
  | cons v rest ih =>
    unfold Memory.place
    split
    · next ha => rw [ih (Memory.wf_set hm ha v) (by omega), Memory.get_set_other hm (by omega)]
    · exact ih hm (by omega)

theorem Memory.get_place {mem : Memory} (hm : mem.wf = true) {a k : Nat} {bytes : List Byte} {v : Byte}
    (hk : bytes[k]? = some v) (hlt : a + k < 256) : (mem.place a bytes).get (a + k) = v := by
  induction bytes generalizing mem a k with
  | nil => cases hk
  | cons w rest ih =>
    have ha : a < 256 := by omega
    rw [Memory.place, if_pos ha]
    have hset := Memory.wf_set hm ha w
    cases k with
    | zero =>
      cases hk
      rw [Memory.get_place_of_lt hset (by omega), Nat.add_zero, Memory.get_set_same hm]
    | succ k =>
      have hnext : a + (k + 1) = a + 1 + k := by omega
      rw [hnext] at hlt ⊢
      exact ih hset hk hlt

theorem readReg_resetWith (image : List Byte) (spInit : Byte) (r : Fin 8) :
    (State.resetWith image spInit).readReg r = if r = 7 then spInit else 0 := by
  fin_cases r <;> rfl

/-- Settles O38: an image of 256 bytes is placed whole, from address 0 on. -/
theorem resetStateValues : Obligations.ResetStateValues := by
  refine fun image spInit hlen => ⟨fun k v hk => ?mem, readReg_resetWith image spInit, rfl, rfl, rfl, rfl⟩
  case mem =>
    obtain ⟨hlt, -⟩ := List.getElem?_eq_some_iff.mp hk
    have h := Memory.get_place Memory.wf_nil (a := 0) (k := k) hk (by omega)
    rwa [Nat.zero_add] at h

end Sys2Proof.Machine
end

section
/-! The end of a run (spec/40_execution_loop.md R91): a step is a function, and none is enabled in an end state, so a run
has at most one; a run that reaches none goes on without end. -/

namespace Sys2Proof.Machine

theorem after_succ_eq_some_iff {m : OpcodeMap} {k : Nat} {s t : State} :
    after m (k + 1) s = some t ↔ ∃ u, stepWith m s = .next u ∧ after m k u = some t := by
  rw [after]
  cases stepWith m s <;> simp

theorem after_succ_of_after {m : OpcodeMap} {k : Nat} {s t u : State} (h : after m k s = some t)
    (hu : stepWith m t = .next u) : after m (k + 1) s = some u := by
  induction k generalizing s with
  | zero => cases h; exact after_succ_of_next hu 0
  | succ k ih =>
    obtain ⟨v, hv, hk⟩ := after_succ_eq_some_iff.mp h
    rw [after_succ_of_next hv, ih hk]

theorem after_succ_of_not_running {m : OpcodeMap} {s : State} (hs : s.state ≠ .running) (k : Nat) (t : State) :
    after m (k + 1) s ≠ some t := by
  intro h
  obtain ⟨u, hu, -⟩ := after_succ_eq_some_iff.mp h
  exact stepWith_ne_next_of_not_running hs u hu

/-- The states in which a run can end are one. -/
theorem after_unique_of_not_running {m : OpcodeMap} {j k : Nat} {s t u : State} (ht : after m j s = some t)
    (hu : after m k s = some u) (hnt : t.state ≠ .running) (hnu : u.state ≠ .running) : t = u := by
  induction j generalizing s k with
  | zero =>
    cases ht
    cases k with
    | zero => exact Option.some.inj hu
    | succ k => exact absurd hu (after_succ_of_not_running hnt k u)
  | succ j ih =>
    cases k with
    | zero =>
      cases hu
      exact absurd ht (after_succ_of_not_running hnu j t)
    | succ k =>
      obtain ⟨v, hv, hj⟩ := after_succ_eq_some_iff.mp ht
      rw [after_succ_of_next hv] at hu
      exact ih hj hu

theorem not_faults_of_halts {m : OpcodeMap} {s : State} (hh : Halts m s) : ¬ Faults m s := by
  rintro ⟨k, u, f, hu, hf⟩
  obtain ⟨j, t, ht, hhalted⟩ := hh
  obtain rfl := after_unique_of_not_running ht hu (by simp [hhalted]) (by simp [hf])
  cases hhalted.symm.trans hf

theorem not_hangs_of_after {m : OpcodeMap} {k : Nat} {s t : State} (ht : after m k s = some t)
    (hnt : t.state ≠ .running) : ¬ Hangs m s := by
  intro hh
  obtain ⟨u, hu, hrun⟩ := hh k
  obtain rfl := Option.some.inj (ht.symm.trans hu)
  exact hnt hrun

theorem not_hangs_of_halts {m : OpcodeMap} {s : State} (hh : Halts m s) : ¬ Hangs m s := by
  obtain ⟨k, t, ht, hhalted⟩ := hh
  exact not_hangs_of_after ht (by simp [hhalted])

theorem not_hangs_of_faults {m : OpcodeMap} {s : State} (hf : Faults m s) : ¬ Hangs m s := by
  obtain ⟨k, t, f, ht, hfaulted⟩ := hf
  exact not_hangs_of_after ht (by simp [hfaulted])

/-- Each step from Running is possible, and where it leaves Running it ends the run. -/
theorem hangs_of_not_halts_of_not_faults {m : OpcodeMap} {s : State} (hs : s.state = .running) (hh : ¬ Halts m s)
    (hf : ¬ Faults m s) : Hangs m s := by
  intro k
  induction k with
  | zero => exact ⟨s, rfl, hs⟩
  | succ k ih =>
    obtain ⟨t, ht, hrun⟩ := ih
    obtain ⟨u, hu⟩ := exists_next_stepWith m hrun
    have hk := after_succ_of_after ht hu
    refine ⟨u, hk, by_contra fun hne => ?_⟩
    rcases (stepWith_state_of_ne hu (hrun ▸ hne)).2 with hhalted | ⟨f, hfaulted⟩
    · exact hh ⟨k + 1, u, hk, hhalted⟩
    · exact hf ⟨k + 1, u, f, hk, hfaulted⟩

/-- Settles O39: the three ends exclude each other, and a run with neither of the finite ones hangs. -/
theorem runHasExactlyOneEnd : Obligations.RunHasExactlyOneEnd := by
  intro m s hs
  by_cases hh : Halts m s
  · exact .inl ⟨hh, not_faults_of_halts hh, not_hangs_of_halts hh⟩
  · by_cases hf : Faults m s
    · exact .inr (.inl ⟨hh, hf, not_hangs_of_faults hf⟩)
    · exact .inr (.inr ⟨hh, hf, hangs_of_not_halts_of_not_faults hs hh hf⟩)

end Sys2Proof.Machine
end

section
/-! What follows a PUSH (spec/44_stack.md, the stack discipline; spec/20_memory.md, ordering): a POP, or a fetch, of the
pushed byte. -/

namespace Sys2Proof.Machine

/-- The state that PUSH of the register `r` gives; `exec_push_eq_pushed` ties it to the instruction. -/
def State.pushed (s : State) (r : Fin 8) : State :=
  (s.decSp.setMem (s.mem.set s.decSp.spAddr (s.decSp.readReg r))).advance 2

/-- The state that POP into the register `q` gives; `exec_pop_eq_popped` ties it to the instruction. -/
def State.popped (s : State) (q : Fin 8) : State :=
  (s.writeReg q (s.mem.get s.spAddr).toNat).incSp.advance 2

theorem exec_push_eq_pushed (r : Fin 8) (s : State) : exec (.push (regByte r)) s = .next (s.pushed r) :=
  execPush_regByte r s

theorem exec_pop_eq_popped (q : Fin 8) (s : State) : exec (.pop (regByte q)) s = .next (s.popped q) :=
  execPop_regByte q s

/-- The cell that PUSH wrote is the one at the decremented SP, which is SP after it. -/
theorem State.get_mem_pushed {s : State} (hs : s.mem.wf = true) (r : Fin 8) :
    (s.pushed r).mem.get s.decSp.spAddr = s.decSp.readReg r :=
  Memory.get_set_same hs _ _

theorem State.readReg_pushed_sp (s : State) (r : Fin 8) : (s.pushed r).readReg sp = s.readReg sp - 1 :=
  s.readReg_decSp_sp

theorem State.readReg_pushed_other (s : State) (r : Fin 8) {p : Fin 8} (hp : p ≠ sp) :
    (s.pushed r).readReg p = s.readReg p :=
  s.readReg_decSp_other hp

theorem State.readReg_popped_same (s : State) {q : Fin 8} (hq : q ≠ sp) :
    (s.popped q).readReg q = s.mem.get s.spAddr := by
  rw [State.popped, State.readReg_advance, State.readReg_incSp_other _ hq, State.readReg_writeReg_same, wrap8_toNat]

theorem State.readReg_popped_sp (s : State) {q : Fin 8} (hq : q ≠ sp) :
    (s.popped q).readReg sp = s.readReg sp + 1 := by
  rw [State.popped, State.readReg_advance, State.readReg_incSp_sp, State.readReg_writeReg_other s q sp _ hq.symm]

theorem State.readReg_popped_into_sp (s : State) : (s.popped sp).readReg sp = s.mem.get s.spAddr + 1 := by
  rw [State.popped, State.readReg_advance, State.readReg_incSp_sp, State.readReg_writeReg_same, wrap8_toNat]

theorem State.readReg_popped_other (s : State) {p q : Fin 8} (hp : p ≠ sp) (hpq : p ≠ q) :
    (s.popped q).readReg p = s.readReg p := by
  rw [State.popped, State.readReg_advance, State.readReg_incSp_other _ hp, State.readReg_writeReg_other s q p _ hpq]

/-- A POP after a PUSH restores the registers that it does not write, SP by its increment. -/
theorem State.readReg_popped_pushed_other (s : State) (r : Fin 8) {p q : Fin 8} (hpq : p ≠ q) :
    ((s.pushed r).popped q).readReg p = s.readReg p := by
  by_cases hp : p = sp
  · rw [hp, State.readReg_popped_sp _ (hp ▸ hpq.symm), State.readReg_pushed_sp, sub_add_cancel]
  · rw [State.readReg_popped_other _ hp hpq, State.readReg_pushed_other s r hp]

/-- Settles O41: POP reads the cell that PUSH wrote, and increments SP back unless it has written SP. -/
theorem pushThenPop : Obligations.PushThenPop := by
  intro s r q hs
  have hcell : (s.pushed r).mem.get (s.pushed r).spAddr = if r = 7 then s.x[7] - 1 else s.x[r] :=
    (State.get_mem_pushed hs r).trans (s.readReg_decSp r)
  refine ⟨_, _, exec_push_eq_pushed r s, exec_pop_eq_popped q _, rfl, fun hq => ⟨?_, fun p hp => ?_⟩, ?_⟩
  · exact (State.readReg_popped_same _ hq).trans hcell
  · exact State.readReg_popped_pushed_other s r hp
  · rintro rfl
    rw [← hcell]
    exact ⟨State.readReg_popped_into_sp _, fun p hp => State.readReg_popped_pushed_other s r hp⟩

/-- Settles O42: the fetch reads the written cell as its opcode. -/
theorem pushedByteIsFetched : Obligations.PushedByteIsFetched := by
  intro m s t r hs ht
  obtain rfl := Host.Outcome.next.inj ((exec_push_eq_pushed r s).symm.trans ht)
  have hop := State.get_mem_pushed hs r
  have hpc := s.decSp.spAddr_lt
  refine ⟨fun hnone => ?unknown, fun i hi => ?known, fun hhlt => ?hlt⟩
  case unknown =>
    rw [← hop] at hnone ⊢
    exact fetch_of_lookup_none hpc hnone
  case known => exact (opcode_of_fetch hi).trans hop
  case hlt => exact fetch_hlt hpc (hop.trans (OpcodeMap.opcode_of_lookup hhlt))

end Sys2Proof.Machine
end
